-- ==== Sys2Proof/Word.lean ====
section
/-! DEFINITION. The bit-vector types of the machine: the widths of 00_scope.md rule R4 and of the instruction fields of
30_encoding.md rule R64. -/

namespace Sys2Proof

/-- A byte: a general register (rule R10), a cell of the memory buffer (rule R21), an immediate `KK` (rule R64). -/
abbrev Byte := BitVec 8

/-- 16 bits: an instruction word (rule R63), `pc` (rule R13), `I` (rule R16), a call-stack entry (rule R18). -/
abbrev Word := BitVec 16

/-- A 12-bit absolute byte address `NNN` (rule R64, rule R70). -/
abbrev Addr := BitVec 12

/-- A 4-bit field: a register number `X` or `Y`, a row count `N`, an opcode class (rule R64). -/
abbrev Nibble := BitVec 4

end Sys2Proof
end

