-- ==== Sys2Proof/Syntax.lean ====
section
/-! DEFINITION. The instruction set: one constructor for each of the eleven rows of spec/opcode_table.json, carrying the
operands of 30_encoding.md rule R66 and rule R67. -/

namespace Sys2Proof

/-- A decoded instruction (rule R66). Bits the decoder ignores (rule R68, rule R69) are no operands. -/
inductive Instr where
  /-- `CLS`, ClearScreen (rule R140). -/
  | cls
  /-- `RET`, Return (rule R112). -/
  | ret
  /-- `JP addr`, Jump (rule R110). -/
  | jp (addr : Addr)
  /-- `CALL addr`, CallSubroutine (rule R111). -/
  | call (addr : Addr)
  /-- `SE Vx, byte`, CompareImmediate with wantEqual = true (rule R120). -/
  | seImm (x : Nibble) (imm : Byte)
  /-- `SNE Vx, byte`, CompareImmediate with wantEqual = false (rule R121). -/
  | sneImm (x : Nibble) (imm : Byte)
  /-- `SE Vx, Vy`, CompareRegisters (rule R122). The variant's field `wantEqual` is kept: no word decodes to `false`
  (rule R73), and rule R122 gives that value its meaning all the same. -/
  | seReg (x y : Nibble) (wantEqual : Bool)
  /-- `LD Vx, byte`, SetImmediate (rule R130). -/
  | ldImm (x : Nibble) (imm : Byte)
  /-- `ADD Vx, byte`, AddImmediate (rule R131). -/
  | addImm (x : Nibble) (imm : Byte)
  /-- `LD I, addr`, SetIndex (rule R132). -/
  | ldI (addr : Addr)
  /-- `DRW Vx, Vy, n`, Draw (rule R141). -/
  | drw (x y n : Nibble)
  deriving DecidableEq, Repr

end Sys2Proof
end

