-- ==== Sys2Proof/Decode.lean ====
section
/-! DEFINITION. The bit-field extractor, the decoder and the encoder (30_encoding.md, rules R60 to R81). -/

namespace Sys2Proof

/-- `extract(word, [start, end))`, bit 0 the MOST significant, `end` excluded (rule R60): the slice
`w[15 - start : 16 - end]`. It is defined on its domain only (rule R62; log entry 20). -/
def extract (w : Word) (start stop : Nat) (_domain : start < stop ∧ stop ≤ 16) : BitVec (stop - start) :=
  w.extractLsb' (16 - stop) (stop - start)

/-- `nibble(word, offset)`: the hex digit at position `offset`, 0 the most significant (rule R61). -/
def nibble (w : Word) (offset : Fin 4) : Nibble :=
  w.extractLsb' (12 - 4 * offset.val) 4

/-- Field `C`, the opcode class, nibble 0 (rule R64). -/
def fieldC (w : Word) : Nibble := nibble w 0

/-- Field `X`, nibble 1 (rule R64). -/
def fieldX (w : Word) : Nibble := nibble w 1

/-- Field `Y`, nibble 2 (rule R64). -/
def fieldY (w : Word) : Nibble := nibble w 2

/-- Field `N`, nibble 3; in class 0x0 the sub-nibble (rule R64). -/
def fieldN (w : Word) : Nibble := nibble w 3

/-- Field `KK`, the range `[8,16)` (rule R64). -/
def fieldKK (w : Word) : Byte := extract w 8 16 (by decide)

/-- Field `NNN`, the range `[4,16)` (rule R64). -/
def fieldNNN (w : Word) : Addr := extract w 4 16 (by decide)

/-- Why bytes are no instruction. -/
inductive DecodeError where
  /-- "unrecognized opcode", with the offending raw word (rule R72). -/
  | unrecognizedOpcode (word : Word)
  /-- Fewer than the two bytes of an instruction are there (rule R63). The cycle never decodes such bytes: its fetch
  check comes first (rule R91; log entry 23). -/
  | truncated
  deriving DecidableEq, Repr

/-- The decoder's result (rule R66): an instruction or a decode error. -/
inductive Decoded where
  | instr (i : Instr)
  | error (e : DecodeError)
  deriving DecidableEq, Repr

/-- `decode(word)`: nibble 0 first, then nibble 3 in class 0x0 (rule R66, the table of rule R67). Every other word is a
decode error that carries it (rule R72, rule R75). Bits 11 to 4 of class 0 and 3 to 0 of class 5 are not tested (rule R68,
rule R69; spec decision D10, log entry 10). -/
def decodeWord (w : Word) : Decoded :=
  match (fieldC w).toNat with
  | 0x0 =>
    match (fieldN w).toNat with
    | 0x0 => .instr .cls
    | 0xE => .instr .ret
    | _ => .error (.unrecognizedOpcode w)
  | 0x1 => .instr (.jp (fieldNNN w))
  | 0x2 => .instr (.call (fieldNNN w))
  | 0x3 => .instr (.seImm (fieldX w) (fieldKK w))
  | 0x4 => .instr (.sneImm (fieldX w) (fieldKK w))
  | 0x5 => .instr (.seReg (fieldX w) (fieldY w) true)
  | 0x6 => .instr (.ldImm (fieldX w) (fieldKK w))
  | 0x7 => .instr (.addImm (fieldX w) (fieldKK w))
  | 0xA => .instr (.ldI (fieldNNN w))
  | 0xD => .instr (.drw (fieldX w) (fieldY w) (fieldN w))
  | _ => .error (.unrecognizedOpcode w)

/-- The byte at the lower address is bits 15 to 8 of the word (20_memory.md rule R41). -/
def wordOfBytes (hi lo : Byte) : Word := hi ++ lo

/-- The byte of a word that stands at the lower address (rule R41). -/
def highByte (w : Word) : Byte := w.extractLsb' 8 8

/-- The byte of a word that stands at the higher address (rule R41). -/
def lowByte (w : Word) : Byte := w.extractLsb' 0 8

/-- Decode the instruction at the head of a byte sequence: what it is, and the bytes after it. -/
def decodeBytes : List Byte → Decoded × List Byte
  | hi :: lo :: rest => (decodeWord (wordOfBytes hi lo), rest)
  | bytes => (.error .truncated, bytes)

/-- The word the assembler emits for an instruction (rule R79, the canonical column); `none` for
`CompareRegisters` with `wantEqual = false`, which "has no encoding" (rule R81). -/
def encode : Instr → Option Word
  | .cls => some 0x00E0
  | .ret => some 0x00EE
  | .jp addr => some (0x1#4 ++ addr)
  | .call addr => some (0x2#4 ++ addr)
  | .seImm x imm => some (0x3#4 ++ (x ++ imm))
  | .sneImm x imm => some (0x4#4 ++ (x ++ imm))
  | .seReg x y true => some (0x5#4 ++ (x ++ (y ++ 0x0#4)))
  | .seReg _ _ false => none
  | .ldImm x imm => some (0x6#4 ++ (x ++ imm))
  | .addImm x imm => some (0x7#4 ++ (x ++ imm))
  | .ldI addr => some (0xA#4 ++ addr)
  | .drw x y n => some (0xD#4 ++ (x ++ (y ++ n)))

/-- The bytes of a word as they lie in memory, the high byte first (rule R41, rule R80). -/
def wordBytes (w : Word) : List Byte := [highByte w, lowByte w]

/-- The word whose bits are the low `nbits` bits of `w` and 0 above, numbered as spec/opcode_table.json numbers them. -/
def tableWord (nbits w : Nat) : Word := BitVec.ofNat 16 (w % 2 ^ nbits)

/-- What the decoder reads from an instruction whose bits, in the opcode table's numbering, are `w`. -/
def decodeTableWord (nbits w : Nat) : Option Instr :=
  match (decodeBytes (wordBytes (tableWord nbits w))).1 with
  | .instr i => some i
  | .error _ => none

end Sys2Proof
end

