-- ==== Sys2Proof/Config.lean ====
section
/-! DEFINITION. The parameters of 00_scope.md rule R5, fixed for the machine, and its one free value, `MEM_BG`. -/

namespace Sys2Proof

/-- `MEM_SIZE`, the bytes of the memory buffer (rule R5, rule R21; spec decision D1, log entry 1). -/
abbrev Config.memSize : Nat := 4096

/-- `STACK_DEPTH`, the capacity of the call stack (rule R5, rule R18; spec decision D3, log entry 3). -/
abbrev Config.stackDepth : Nat := 16

/-- `GRID_W`, the columns of the pixel grid (rule R4, rule R5). -/
abbrev Config.gridW : Nat := 64

/-- `GRID_H`, the rows of the pixel grid (rule R4, rule R5). -/
abbrev Config.gridH : Nat := 32

/-- The default of `LOAD_BASE` (rule R5; spec decision D2). PRESUMED, log entry 2: only `State.reset` uses it; a load
takes its base as an input and the state holds it. -/
abbrev Config.defaultLoadBase : Nat := 0x200

/-- `MEM_BG`, the byte that an address outside the loaded image holds (rule R5, rule R33; spec decision D7). OPEN in the
spec: a FREE VALUE of the model (log entry 7). It has no body, so nothing can be proved of the value. -/
opaque Config.memBg : Nat → Byte

end Sys2Proof
end

