-- ==== Sys2Proof/Machine/State.lean ====
section
/-! DEFINITION. The machine state of 10_state.md (rules R10 to R28), its reset value (rule R33) and the reasons a step can
end without a next state. -/

namespace Sys2Proof.Machine

/-- The five halt reasons (rule R25, 60_exceptions.md rule R150). -/
inductive HaltReason where
  /-- The two bytes at `pc` are not both inside the loaded extent (rule R91). -/
  | endOfProgram
  /-- The fetched word decodes to nothing; it is carried (rule R93). -/
  | invalidInstruction (word : Word)
  /-- CallSubroutine with the stack at its capacity (rule R111). -/
  | stackOverflow
  /-- Return with an empty stack (rule R112). -/
  | stackUnderflow
  /-- Draw reads a sprite row at or above `MEM_SIZE` (rule R143). -/
  | outOfBoundsRead
  deriving DecidableEq, Repr

/-- The cycle driver's state (rule R25). -/
inductive Status where
  | running
  | halted (reason : HaltReason)
  deriving DecidableEq, Repr

/-- The pixel grid: 32 rows, top row first, each of 64 boolean cells, left column first (rule R23). -/
abbrev Grid := Vector (Vector Bool Config.gridW) Config.gridH

/-- The memory buffer's loaded bytes: address and byte, addresses strictly rising. An address that is not listed holds no
loaded byte; it reads as `Config.memBg` (log entry 7). -/
abbrev Memory := List Host.Cell

/-- The whole machine state (10_state.md, summary table). -/
structure State where
  /-- `x[0]` to `x[15]`; `x[15]` is the flag register (rule R10, rule R12). -/
  regs : Vector Byte 16
  /-- The program counter, an absolute byte address (rule R13). -/
  pc : Word
  /-- The index register `I` (rule R16). -/
  index : Word
  /-- The call-stack slots; those at or above `sp` keep what was last written there (rule R18, rule R19). -/
  stack : Vector Word Config.stackDepth
  /-- How many slots are live, 0 to `STACK_DEPTH` (rule R19). -/
  sp : Fin (Config.stackDepth + 1)
  /-- The bytes the load put into the memory buffer (rule R21, rule R22). -/
  mem : Memory
  /-- `LOAD_BASE`, the start of the loaded extent, fixed at load (rule R27, rule R181). -/
  loadBase : Nat
  /-- `IMG_LEN`, the length of the loaded extent, fixed at load (rule R27, rule R181). -/
  imgLen : Nat
  /-- The pixel grid (rule R23). -/
  grid : Grid
  /-- `Running` or `Halted(reason)` (rule R25). -/
  status : Status
  deriving DecidableEq, Repr

/-- A step that has no next state. No state that a load makes and ticks lead to raises one. -/
inductive Fault where
  /-- Raised by the fetch alone, when the loaded extent permits a fetch whose address is at or above `MEM_SIZE`, where
  "no memory" is (20_memory.md rule R47). Only a state whose extent breaks rule R182 can raise it. SAFE: the model stops
  where the spec gives no behaviour (log entry 16). -/
  | fetchOutsideMemory (addr : Nat)
  deriving DecidableEq, Repr

/-- What the model gives no meaning to. -/
inductive Refusal where
  /-- An instruction that `exec` has no meaning for yet. SAFE: nothing can be proved of its run. No arm answers it now. -/
  | notModelled (mnemonic : String)
  /-- Raised by `State.load` alone: `LOAD_BASE + IMG_LEN > MEM_SIZE`, which "is not a launch state" (rule R182). SAFE. -/
  | imageDoesNotFit (base imgLen : Nat)
  /-- Raised by `State.load` alone: an odd `LOAD_BASE`, which breaks a precondition of load (rule R182). SAFE. -/
  | oddLoadBase (base : Nat)
  deriving DecidableEq, Repr

/-- The grid with every cell off. -/
def Grid.blank : Grid := Vector.replicate Config.gridH (Vector.replicate Config.gridW false)

/-- The machine right after reset with the empty image at the default load base (rule R33). A program enters through
`State.load` (log entry 19). -/
def State.reset : State where
  regs := Vector.replicate 16 0
  pc := BitVec.ofNat 16 Config.defaultLoadBase
  index := 0
  stack := Vector.replicate Config.stackDepth 0
  sp := 0
  mem := []
  loadBase := Config.defaultLoadBase
  imgLen := 0
  grid := Grid.blank
  status := .running

end Sys2Proof.Machine
end

