-- ==== Sys2Proof/WellFormed.lean ====
section
/-! DEFINITION. What is well formed: an instruction value that some word encodes (30_encoding.md rule R73, rule R81), and
an image with its load base that the host may load (70_reset_and_hazards.md rule R182). Every operand's range is in its
type (rule R64). -/

namespace Sys2Proof

/-- The instruction value has an encoding: every one has, but `CompareRegisters` with `wantEqual = false`, which "has no
encoding" (rule R81, rule R73; log entry 17). -/
def Instr.wellFormed : Instr → Bool
  | .cls => true
  | .ret => true
  | .jp _ => true
  | .call _ => true
  | .seImm _ _ => true
  | .sneImm _ _ => true
  | .seReg _ _ wantEqual => wantEqual
  | .ldImm _ _ => true
  | .addImm _ _ => true
  | .ldI _ => true
  | .drw _ _ _ => true

/-- `LOAD_BASE` is even (rule R182, first precondition on the base). -/
def loadBaseEven (base : Nat) : Bool := base % 2 == 0

/-- The image fits: `LOAD_BASE + IMG_LEN <= MEM_SIZE` (rule R182). -/
def imageFits (base : Nat) (img : List Byte) : Bool := decide (base + img.length ≤ Config.memSize)

end Sys2Proof
end

