-- ==== Sys2Proof/Machine/Ops.lean ====
section
/-! DEFINITION. The named operations over the state: registers, memory, the pixel grid, the call stack, the program
counter, halting, and the host's moves (load and the ports). -/

namespace Sys2Proof.Machine

/-! ### General registers (10_state.md rule R10) -/

/-- `x[i]` (rule R10). No register is hardwired. -/
def State.reg (s : State) (i : Nibble) : Byte := s.regs[i.toNat]'i.isLt

/-- `x[i] <- v` (rule R10). -/
def State.setReg (s : State) (i : Nibble) (v : Byte) : State :=
  { s with regs := s.regs.set i.toNat v i.isLt }

/-! ### The program counter and the index register (rules R13 to R17) -/

/-- `pc <- target`. -/
def State.setPc (s : State) (target : Word) : State := { s with pc := target }

/-- `pc <- pc + 2`: the driver's advance (40_cycle_pipeline.md rule R94), and again in a skip (42_conditional_skip.md rule
R123). Modulo 2^16, which no reachable state shows (rule R15; log entry 4). -/
def State.advance (s : State) : State := s.setPc (s.pc + 2)

/-- `I <- v` (rule R17). -/
def State.setIndex (s : State) (v : Word) : State := { s with index := v }

/-! ### Halting: the machine's whole exception mechanism (00_scope.md rule R7, 60_exceptions.md rule R156) -/

/-- `raise reason`: `status <- Halted(reason)` and nothing else. There is no handler, no saved state and no return
(rule R156, rule R160). -/
def State.raise (s : State) (reason : HaltReason) : State := { s with status := .halted reason }

/-! ### The call stack (rules R18, R19; 41_control_flow.md rules R111, R112) -/

/-- Push a return address; `none` when the stack is at its capacity (rule R111). -/
def State.push? (s : State) (v : Word) : Option State :=
  if h : s.sp.val < Config.stackDepth then
    some { s with stack := s.stack.set s.sp.val v h, sp := ⟨s.sp.val + 1, Nat.succ_lt_succ h⟩ }
  else none

/-- Pop the most recent entry; `none` when the stack is empty. The vacated slot keeps its value (rule R112;
log entry 18). -/
def State.pop? (s : State) : Option (Word × State) :=
  if h : 0 < s.sp.val then
    have below : s.sp.val - 1 < Config.stackDepth := by have := s.sp.isLt; omega
    some (s.stack[s.sp.val - 1]'below, { s with sp := ⟨s.sp.val - 1, Nat.lt_succ_of_lt below⟩ })
  else none

/-! ### The memory buffer (rule R21, 20_memory.md) -/

/-- The canonical form: addresses strictly rising, so no address is listed twice. (An unlisted address holds no loaded
byte, so no entry can equal it.) -/
abbrev Memory.wf (m : Memory) : Prop := (m.map Prod.fst).Pairwise (· < ·)

/-- The loaded byte at an address, if there is one. -/
def Memory.byteAt? : Memory → Nat → Option Byte
  | [], _ => none
  | (k, v) :: m, a => if k = a then some v else Memory.byteAt? m a

/-- Put a byte at an address; used by the load alone (rule R181). -/
def Memory.put : Memory → Nat → Byte → Memory
  | [], a, v => [(a, v)]
  | (k, w) :: m, a, v =>
    if a < k then (a, v) :: (k, w) :: m
    else if a = k then (a, v) :: m
    else (k, w) :: Memory.put m a v

/-- Put the bytes of an image at an address and the addresses after it, in order (rule R181). -/
def Memory.putBytes : Memory → Nat → List Byte → Memory
  | m, _, [] => m
  | m, a, b :: bs => Memory.putBytes (m.put a b) (a + 1) bs

/-- `MemRead(addr, 1)` (00_scope.md rule R6): the loaded byte, or `MEM_BG` where the image does not reach; `none` at
`MEM_SIZE` and above, where there is no memory (20_memory.md rule R47). No side effect (rule R46). -/
def State.readByte? (s : State) (a : Nat) : Option Byte :=
  if a < Config.memSize then some ((s.mem.byteAt? a).getD (Config.memBg a)) else none

/-- `MemRead(addr, 2)`, the byte at `addr` in the high half (rule R6, 20_memory.md rule R41). -/
def State.readWord? (s : State) (a : Nat) : Option Word :=
  match s.readByte? a, s.readByte? (a + 1) with
  | some hi, some lo => some (wordOfBytes hi lo)
  | _, _ => none

/-! ### The pixel grid (rule R23) -/

/-- `pixel(px, py)`: column `px` from the left, row `py` from the top (rule R23; spec decision D13, log entry
13). -/
def Grid.pixel (g : Grid) (px : Fin Config.gridW) (py : Fin Config.gridH) : Bool := (g[py.val]'py.isLt)[px.val]'px.isLt

/-- `pixel(px, py) <- not pixel(px, py)` (44_display.md rule R141). -/
def Grid.toggle (g : Grid) (px : Fin Config.gridW) (py : Fin Config.gridH) : Grid :=
  g.set py.val ((g[py.val]'py.isLt).set px.val (!g.pixel px py) px.isLt) py.isLt

/-- The grid becomes `g`. -/
def State.setGrid (s : State) (g : Grid) : State := { s with grid := g }

/-! ### The host's moves (10_state.md rules R30, R31; 70_reset_and_hazards.md rules R180 to R182, R187) -/

/-- `reset(IMG, LOAD_BASE)` (rule R180, rule R181): every piece of state at its reset value (rule R33), the image's bytes
at the base, the loaded extent recorded, `pc` at the base. A configuration that breaks a precondition of rule R182 is
refused by name (log entry 15). -/
def State.load (img : List Byte) (base : Nat) : Host.Outcome State Fault Refusal :=
  if loadBaseEven base then
    if imageFits base img then
      .next { State.reset with
        pc := BitVec.ofNat 16 base, mem := Memory.putBytes [] base img, loadBase := base, imgLen := img.length }
    else .refused (.imageDoesNotFit base img.length)
  else .refused (.oddLoadBase base)

/-- The display port: a read-only view of a cell between cycles (rule R31). -/
def State.displayPort (s : State) (px : Fin Config.gridW) (py : Fin Config.gridH) : Bool := s.grid.pixel px py

/-- `status_code` of the status port (60_exceptions.md rule R170; log entry 14). -/
def State.statusCode (s : State) : Nat :=
  match s.status with
  | .running => 0
  | .halted .endOfProgram => 1
  | .halted (.invalidInstruction _) => 2
  | .halted .stackOverflow => 3
  | .halted .stackUnderflow => 4
  | .halted .outOfBoundsRead => 5

/-- `halt_word` of the status port: the raw word, valid with code 2 only (rule R170, rule R26). -/
def State.haltWord (s : State) : Option Word :=
  match s.status with
  | .halted (.invalidInstruction w) => some w
  | _ => none

end Sys2Proof.Machine
end

