-- ==== Sys2Proof/Machine/Operands.lean ====
section
/-! DEFINITION. Every operand form of the instruction set (30_encoding.md rule R70, 44_display.md rule R141). An immediate
`KK` and a row count `N` are used as they stand; a register operand is `State.reg`. -/

namespace Sys2Proof.Machine

/-- `zext_16(NNN)`: a 12-bit absolute address as a 16-bit `pc` or `I` (rule R70). -/
def zext16 (addr : Addr) : Word := addr.setWidth 16

/-- `x0 = x[X] mod 64`, a Draw's left column (rule R141). -/
def State.drawColumn (s : State) (x : Nibble) : Nat := (s.reg x).toNat % Config.gridW

/-- `y0 = x[Y] mod 32`, a Draw's top row (rule R141). -/
def State.drawRow (s : State) (y : Nibble) : Nat := (s.reg y).toNat % Config.gridH

/-- `I + r`, the address of a sprite's row `r`, an exact integer (20_memory.md rule R49; log entry 21). -/
def State.rowAddr (s : State) (r : Nat) : Nat := s.index.toNat + r

end Sys2Proof.Machine
end

