-- ==== Sys2Proof/Machine/Control.lean ====
section
/-! DEFINITION. Control transfer (41_control_flow.md). On entry `pc` is the address after the instruction (rule R94). -/

namespace Sys2Proof.Machine

/-- Return: pop the call stack into `pc`, or halt with StackUnderflow when it is empty (rule R112). -/
def execRet (s : State) : Host.Outcome State Fault Refusal :=
  match s.pop? with
  | some (target, t) => .next (t.setPc target)
  | none => .next (s.raise .stackUnderflow)

/-- Jump: `pc <- zext_16(NNN)`; the call stack is not touched (rule R110). -/
def execJp (addr : Addr) (s : State) : Host.Outcome State Fault Refusal :=
  .next (s.setPc (zext16 addr))

/-- CallSubroutine: push the advanced `pc`, then `pc <- zext_16(NNN)`; at capacity halt with StackOverflow, nothing pushed
and `pc` not redirected (rule R111). -/
def execCall (addr : Addr) (s : State) : Host.Outcome State Fault Refusal :=
  match s.push? s.pc with
  | some t => .next (t.setPc (zext16 addr))
  | none => .next (s.raise .stackOverflow)

end Sys2Proof.Machine
end

