-- ==== Sys2Proof/Machine/Flags.lean ====
section
/-! DEFINITION. The machine's only flag: the collision flag, which Draw writes into register 15 (10_state.md rule R12). No
other instruction computes a flag (rule R12, 43_register_ops.md rule R131). -/

namespace Sys2Proof.Machine

/-- The flag register's number (rule R12). -/
def flagReg : Nibble := 15

/-- A collision flag as a byte: 0x00 or 0x01 (rule R12). -/
def flagByte (collision : Bool) : Byte := if collision then 0x01 else 0x00

/-- `x[15] <- flag`, overwriting its previous value (rule R12, 44_display.md rule R141). -/
def State.setFlag (s : State) (collision : Bool) : State := s.setReg flagReg (flagByte collision)

end Sys2Proof.Machine
end

