-- ==== Sys2Proof/Machine/Display.lean ====
section
/-! DEFINITION. The display instructions and the pixel XOR collider (44_display.md). Neither changes `pc` further. -/

namespace Sys2Proof.Machine

/-- A drawing in progress: the grid and the collision flag gathered so far, a local of one Draw (10_state.md rule R28). -/
structure Canvas where
  grid : Grid
  collision : Bool
  deriving DecidableEq, Repr

/-- How the row loop of a Draw ends: after all rows, or at the first row with no memory under it, with the rows before it
drawn (rule R141, rule R143). -/
inductive Drawn where
  | complete (c : Canvas)
  | outOfBounds (g : Grid)
  deriving DecidableEq, Repr

/-- One 1 bit of a sprite at `(px, py)`: inside the grid the cell is toggled and a lit cell sets the flag; outside it is
clipped, nothing happens (rule R141). -/
def Canvas.plot (c : Canvas) (px py : Nat) : Canvas :=
  if h : px < Config.gridW ∧ py < Config.gridH then
    ⟨c.grid.toggle ⟨px, h.1⟩ ⟨py, h.2⟩, c.collision || c.grid.pixel ⟨px, h.1⟩ ⟨py, h.2⟩⟩
  else c

/-- One row byte, bit `7 - c` at column offset `c`, the offsets of the list in its order; a 0 bit does nothing (rule
R141, rule R142). -/
def Canvas.plotBits (x0 py : Nat) (b : Byte) : List Nat → Canvas → Canvas
  | [], c => c
  | k :: ks, c => Canvas.plotBits x0 py b ks (if b.getLsbD (7 - k) then c.plot (x0 + k) py else c)

/-- One row byte at grid row `py`, column offsets 0 to 7 ascending (rule R141). -/
def Canvas.plotRow (c : Canvas) (x0 py : Nat) (b : Byte) : Canvas :=
  Canvas.plotBits x0 py b [0, 1, 2, 3, 4, 5, 6, 7] c

/-- The row loop from row `r` on, `rows` rows left: read the row's byte, bound check first, then plot it. A row that is
clipped is read and checked all the same (rule R141; spec decision D12, log entry 12). -/
def State.drawRows (s : State) (x0 y0 : Nat) : (rows r : Nat) → Canvas → Drawn
  | 0, _, c => .complete c
  | rows + 1, r, c =>
    match s.readByte? (s.rowAddr r) with
    | none => .outOfBounds c.grid
    | some b => s.drawRows x0 y0 rows (r + 1) (c.plotRow x0 (y0 + r) b)

/-- ClearScreen: every cell off, no other change (rule R140). -/
def execCls (s : State) : Host.Outcome State Fault Refusal :=
  .next (s.setGrid Grid.blank)

/-- Draw: XOR `N` rows at `I` into the grid at `(x[X] mod 64, x[Y] mod 32)`, clipped, then `x[15] <- flag`; on a row past
the end of memory halt with OutOfBoundsRead, the rows before it drawn and `x[15]` not written (rule R141, rule R143; spec
decision D11, log entry 11). -/
def execDrw (x y n : Nibble) (s : State) : Host.Outcome State Fault Refusal :=
  match s.drawRows (s.drawColumn x) (s.drawRow y) n.toNat 0 ⟨s.grid, false⟩ with
  | .complete c => .next ((s.setGrid c.grid).setFlag c.collision)
  | .outOfBounds g => .next ((s.setGrid g).raise .outOfBoundsRead)

end Sys2Proof.Machine
end

