-- ==== Sys2Proof/Machine/RegisterOps.lean ====
section
/-! DEFINITION. Register operations (43_register_ops.md). None changes `pc` further. -/

namespace Sys2Proof.Machine

/-- SetImmediate: `x[X] <- KK` (rule R130). -/
def execLdImm (x : Nibble) (imm : Byte) (s : State) : Host.Outcome State Fault Refusal :=
  .next (s.setReg x imm)

/-- AddImmediate: `x[X] <- (x[X] + KK) mod 256`; the carry is discarded and no flag is written (rule R131). -/
def execAddImm (x : Nibble) (imm : Byte) (s : State) : Host.Outcome State Fault Refusal :=
  .next (s.setReg x (s.reg x + imm))

/-- SetIndex: `I <- zext_16(NNN)` (rule R132). -/
def execLdI (addr : Addr) (s : State) : Host.Outcome State Fault Refusal :=
  .next (s.setIndex (zext16 addr))

end Sys2Proof.Machine
end

