-- ==== Sys2Proof/Machine/Skip.lean ====
section
/-! DEFINITION. Conditional skips (42_conditional_skip.md). On entry `pc` is the address after the instruction (rule R94). -/

namespace Sys2Proof.Machine

/-- "If the comparison outcome matches `wantEqual`", skip the next instruction: `pc <- pc + 2` (rules R120 to R123). -/
def State.skipWhen (s : State) (equal wantEqual : Bool) : State := if equal = wantEqual then s.advance else s

/-- CompareImmediate, wantEqual = true: skip when `x[X] = KK` (rule R120). -/
def execSeImm (x : Nibble) (imm : Byte) (s : State) : Host.Outcome State Fault Refusal :=
  .next (s.skipWhen (s.reg x == imm) true)

/-- CompareImmediate, wantEqual = false: skip when `x[X]` differs from `KK` (rule R121). -/
def execSneImm (x : Nibble) (imm : Byte) (s : State) : Host.Outcome State Fault Refusal :=
  .next (s.skipWhen (s.reg x == imm) false)

/-- CompareRegisters: skip when `(x[X] = x[Y])` has the truth value `wantEqual` (rule R122). -/
def execSeReg (x y : Nibble) (wantEqual : Bool) (s : State) : Host.Outcome State Fault Refusal :=
  .next (s.skipWhen (s.reg x == s.reg y) wantEqual)

end Sys2Proof.Machine
end

