-- ==== Sys2Proof/Machine/Dispatch.lean ====
section
/-! DEFINITION. The execute phase's dispatch: one arm per instruction (40_cycle_pipeline.md rule R94). -/

namespace Sys2Proof.Machine

/-- The execute phase: apply one decoded instruction to the state whose `pc` is already advanced (rule R94). -/
def exec (i : Instr) (s : State) : Host.Outcome State Fault Refusal :=
  match i with
  | .cls => Sys2Proof.Machine.execCls s
  | .ret => Sys2Proof.Machine.execRet s
  | .jp addr => Sys2Proof.Machine.execJp addr s
  | .call addr => Sys2Proof.Machine.execCall addr s
  | .seImm x imm => Sys2Proof.Machine.execSeImm x imm s
  | .sneImm x imm => Sys2Proof.Machine.execSneImm x imm s
  | .seReg x y wantEqual => Sys2Proof.Machine.execSeReg x y wantEqual s
  | .ldImm x imm => Sys2Proof.Machine.execLdImm x imm s
  | .addImm x imm => Sys2Proof.Machine.execAddImm x imm s
  | .ldI addr => Sys2Proof.Machine.execLdI addr s
  | .drw x y n => Sys2Proof.Machine.execDrw x y n s

end Sys2Proof.Machine
end

