-- ==== Sys2Proof/Machine/Fetch.lean ====
section
/-! DEFINITION. The cycle up to the execute phase: status test, fetch check, fetch, decode, advance
(40_cycle_pipeline.md rules R90 to R94). -/

namespace Sys2Proof.Machine

/-- What the phases before execute come to: an instruction to execute, on the state with `pc` advanced, or the end of the
cycle. -/
inductive Front where
  | execute (i : Instr) (s : State)
  | ends (o : Host.Outcome State Fault Refusal)

/-- The fetch check: `[pc, pc + 2)` lies inside `[LOAD_BASE, LOAD_BASE + IMG_LEN)`, on exact integers (rule R91,
20_memory.md rule R48). A `pc` below the base fails it (spec decision D8, log entry 8); an odd `pc` does not (rule R43; spec
decision D9, log entry 9). -/
abbrev State.fetchPermitted (s : State) : Prop :=
  s.loadBase ≤ s.pc.toNat ∧ s.pc.toNat + 2 ≤ s.loadBase + s.imgLen

/-- Phases F, D and A of one tick (rule R90). A halted machine does not change (rule R96). A permitted fetch at an address
with no memory, in a state that no load makes, is the fault of log entry 16. -/
def State.front (s : State) : Front :=
  match s.status with
  | .halted _ => .ends (.next s)
  | .running =>
    if s.fetchPermitted then
      match s.readWord? s.pc.toNat with
      | none => .ends (.fault (.fetchOutsideMemory s.pc.toNat))
      | some w =>
        match decodeWord w with
        | .error _ => .ends (.next (s.raise (.invalidInstruction w)))
        | .instr i => .execute i s.advance
    else .ends (.next (s.raise .endOfProgram))

/-- `s` running, with word `w` in memory at `pc`, and the loaded extent stretched where it does not hold `[pc, pc + 2)`:
what a load of an image with that word at `pc` leaves (log entry 19). -/
def State.withWordAtPc (s : State) (w : Word) : State :=
  { s with
    status := .running
    mem := s.mem.putBytes s.pc.toNat (wordBytes w)
    loadBase := min s.loadBase s.pc.toNat
    imgLen := max (s.loadBase + s.imgLen) (s.pc.toNat + 2) - min s.loadBase s.pc.toNat }

end Sys2Proof.Machine
end

