-- ==== Sys2Proof/Machine/Step.lean ====
section
/-! DEFINITION. One tick (40_cycle_pipeline.md rule R90). -/

namespace Sys2Proof.Machine

/-- One tick: the phases before execute, then execute on the state with `pc` advanced (rule R90). -/
def step (s : State) : Host.Outcome State Fault Refusal :=
  match s.front with
  | .ends o => o
  | .execute i t => exec i t

/-- `s` with the instruction whose bits, in the opcode table's numbering, are `w` stored where `step` fetches next. -/
def State.withFetchWord (s : State) (nbits w : Nat) : State := s.withWordAtPc (tableWord nbits w)

end Sys2Proof.Machine
end

