-- ==== Sys2Proof/Safety.lean ====
section
/-! DEFINITION. The terms the statements are made in: the invariant of the machine, what an instruction leaves alone, the
closed form of a sprite, and what is observable of a call stack. None of it is used by the machine. -/

namespace Sys2Proof.Machine

/-! ### The invariant every tick keeps -/

/-- What holds in every state that a load makes and ticks lead to. -/
structure State.Inv (s : State) : Prop where
  /-- The memory list is in its canonical form. -/
  memCanonical : s.mem.wf
  /-- Every loaded byte lies inside the memory buffer (10_state.md rule R21). -/
  memInside : ∀ c ∈ s.mem, c.1 < Config.memSize
  /-- `LOAD_BASE + IMG_LEN <= MEM_SIZE` (70_reset_and_hazards.md rule R182). -/
  extentFits : s.loadBase + s.imgLen ≤ Config.memSize
  /-- `I` is in `[0, 0x0FFF]` (10_state.md rule R17). -/
  indexIn12Bits : s.index.toNat ≤ 0x0FFF
  /-- `pc <= MEM_SIZE + 2`, so no addition to it wraps (10_state.md rule R15). -/
  pcBounded : s.pc.toNat ≤ Config.memSize + 2
  /-- Every live return address is at most `MEM_SIZE` (41_control_flow.md rule R111). -/
  returnsBounded : ∀ k : Fin Config.stackDepth, k.val < s.sp.val → (s.stack[k.val]'k.isLt).toNat ≤ Config.memSize

/-! ### Frames -/

/-- The parts of the state, for saying which of them an instruction leaves alone. -/
inductive Part where
  | regs | pc | index | stack | memory | grid | status
  deriving DecidableEq, Repr

/-- `t` has the same part as `s`: every register, every stack slot and the count, every byte at every address and the
loaded extent, every cell. -/
def State.Keeps (s t : State) : Part → Prop
  | .regs => ∀ i, t.reg i = s.reg i
  | .pc => t.pc = s.pc
  | .index => t.index = s.index
  | .stack => t.sp = s.sp ∧ ∀ k : Fin Config.stackDepth, t.stack[k.val]'k.isLt = s.stack[k.val]'k.isLt
  | .memory => (∀ a, t.readByte? a = s.readByte? a) ∧ t.loadBase = s.loadBase ∧ t.imgLen = s.imgLen
  | .grid => ∀ px py, t.grid.pixel px py = s.grid.pixel px py
  | .status => t.status = s.status

/-- Every part of the state but those listed is the same. -/
def State.UnchangedBut (parts : List Part) (s t : State) : Prop := ∀ p, p ∉ parts → s.Keeps t p

/-! ### The closed form of a sprite -/

/-- The sprite of `rows` rows at `I` has a 1 bit over the cell `(px, py)` when its top left corner is at `(x0, y0)`
(44_display.md rule R142): bit `7 - (px - x0)` of the byte at `I + (py - y0)`. -/
def State.spriteBit (s : State) (x0 y0 rows px py : Nat) : Bool :=
  decide (x0 ≤ px ∧ px < x0 + 8 ∧ y0 ≤ py ∧ py < y0 + rows) &&
    match s.readByte? (s.index.toNat + (py - y0)) with
    | some b => b.getLsbD (7 - (px - x0))
    | none => false

/-- The sprite hits a cell of the grid that is on (44_display.md rule R144 (c)). -/
def State.SpriteHits (s : State) (x0 y0 rows : Nat) : Prop :=
  ∃ px py, s.spriteBit x0 y0 rows px.val py.val = true ∧ s.grid.pixel px py = true

/-! ### The live part of the call stack -/

/-- The two states are the same but for stack slots at or above `sp`, which nothing reads (10_state.md rule R19). -/
def State.SameLive (s t : State) : Prop :=
  s.regs = t.regs ∧ s.pc = t.pc ∧ s.index = t.index ∧ s.sp = t.sp ∧ s.mem = t.mem ∧ s.loadBase = t.loadBase ∧
    s.imgLen = t.imgLen ∧ s.grid = t.grid ∧ s.status = t.status ∧
    ∀ k : Fin Config.stackDepth, k.val < s.sp.val → s.stack[k.val]'k.isLt = t.stack[k.val]'k.isLt

/-! ### The decode table -/

/-- The mask and the value of each row of the decode table, in its order (30_encoding.md rule R67). -/
def decodeRows : List (Word × Word) :=
  [(0xF00F, 0x0000), (0xF00F, 0x000E), (0xF000, 0x1000), (0xF000, 0x2000), (0xF000, 0x3000), (0xF000, 0x4000),
    (0xF000, 0x5000), (0xF000, 0x6000), (0xF000, 0x7000), (0xF000, 0xA000), (0xF000, 0xD000)]

/-- The bits of an instruction's word that the decoder looks at (30_encoding.md rule R65; rules R68 and R69 name the bits
it ignores). -/
def significantBits : Instr → Word
  | .cls => 0xF00F
  | .ret => 0xF00F
  | .jp _ => 0xFFFF
  | .call _ => 0xFFFF
  | .seImm _ _ => 0xFFFF
  | .sneImm _ _ => 0xFFFF
  | .seReg _ _ _ => 0xFFF0
  | .ldImm _ _ => 0xFFFF
  | .addImm _ _ => 0xFFFF
  | .ldI _ => 0xFFFF
  | .drw _ _ _ => 0xFFFF

/-! ### Alignment -/

/-- `pc`, every live return address and the load base are even (10_state.md rule R15). -/
def State.AllEven (s : State) : Prop :=
  s.pc.toNat % 2 = 0 ∧ s.loadBase % 2 = 0 ∧
    ∀ k : Fin Config.stackDepth, k.val < s.sp.val → (s.stack[k.val]'k.isLt).toNat % 2 = 0

end Sys2Proof.Machine
end

