-- ==== Sys2Proof/Certificates/Slice0/Obligations.lean ====
section
/-! DEFINITION. The statements for the provers. `s.UnchangedBut parts t` says that every part of the state not listed is
the same in `t` as in `s`: every register, `pc`, `I`, the stack, every byte of memory, every cell, the status. Where `exec`
is applied to a state, its `pc` is already the address after the instruction (40_cycle_pipeline.md rule R94). -/

open Sys2Proof Sys2Proof.Machine

/-! ### The extractor and the decoder -/

/-- Rule R60: `extract(w, [s, e)) = (w >> (16 - e)) & (2^(e - s) - 1)`, of width `e - s`, bit by bit and as a number; the
full range is the identity. -/
def Obligations.ExtractIsTheMsbFirstSlice : Prop :=
  ∀ (w : Word) (start stop : Nat) (h : start < stop ∧ stop ≤ 16),
    (extract w start stop h).toNat = w.toNat / 2 ^ (16 - stop) % 2 ^ (stop - start) ∧
    (∀ k, k < stop - start → (extract w start stop h).getLsbD k = w.getLsbD (16 - stop + k)) ∧
    extract w 0 16 (by decide) = w

/-- Rule R61: `nibble(w, k)` is the hex digit at position `k`, 0 the most significant, and equals
`extract(w, [4k, 4k + 4))`. -/
def Obligations.NibbleIsTheHexDigitAtItsPosition : Prop :=
  ∀ (w : Word) (k : Fin 4) (h : 4 * k.val < 4 * k.val + 4 ∧ 4 * k.val + 4 ≤ 16),
    (nibble w k).toNat = w.toNat / 2 ^ (12 - 4 * k.val) % 16 ∧
    (nibble w k).toNat = (extract w (4 * k.val) (4 * k.val + 4) h).toNat

/-- Rule R67, the decode table row by row, the fields as the slices of rule R64; a word that matches no row is the decode
error of its last row, which carries the word. The masks of class 0 and class 5 leave out the bits that the spec's decision
D10 says are not tested (log entry 10). -/
def Obligations.DecodeFollowsTheTable : Prop :=
  ∀ w : Word,
    (w &&& 0xF00F = 0x0000 → decodeWord w = .instr .cls) ∧
    (w &&& 0xF00F = 0x000E → decodeWord w = .instr .ret) ∧
    (w &&& 0xF000 = 0x1000 → decodeWord w = .instr (.jp (w.extractLsb' 0 12))) ∧
    (w &&& 0xF000 = 0x2000 → decodeWord w = .instr (.call (w.extractLsb' 0 12))) ∧
    (w &&& 0xF000 = 0x3000 → decodeWord w = .instr (.seImm (w.extractLsb' 8 4) (w.extractLsb' 0 8))) ∧
    (w &&& 0xF000 = 0x4000 → decodeWord w = .instr (.sneImm (w.extractLsb' 8 4) (w.extractLsb' 0 8))) ∧
    (w &&& 0xF000 = 0x5000 → decodeWord w = .instr (.seReg (w.extractLsb' 8 4) (w.extractLsb' 4 4) true)) ∧
    (w &&& 0xF000 = 0x6000 → decodeWord w = .instr (.ldImm (w.extractLsb' 8 4) (w.extractLsb' 0 8))) ∧
    (w &&& 0xF000 = 0x7000 → decodeWord w = .instr (.addImm (w.extractLsb' 8 4) (w.extractLsb' 0 8))) ∧
    (w &&& 0xF000 = 0xA000 → decodeWord w = .instr (.ldI (w.extractLsb' 0 12))) ∧
    (w &&& 0xF000 = 0xD000 →
      decodeWord w = .instr (.drw (w.extractLsb' 8 4) (w.extractLsb' 4 4) (w.extractLsb' 0 4))) ∧
    ((∀ row ∈ decodeRows, w &&& row.1 ≠ row.2) → decodeWord w = .error (.unrecognizedOpcode w))

/-- Rule R71: no word matches two rows of the decode table. -/
def Obligations.DecodeTableRowsDoNotOverlap : Prop :=
  ∀ (w : Word) (i j : Fin decodeRows.length),
    w &&& (decodeRows.get i).1 = (decodeRows.get i).2 → w &&& (decodeRows.get j).1 = (decodeRows.get j).2 → i = j

/-- Rules R72, R75: exactly the words whose class nibble is not in {0,1,2,3,4,5,6,7,A,D}, or that are class 0 with
sub-nibble not in {0, E}, are decode errors, and the error carries the word. That bits 11 to 4 of class 0 are not tested
is the spec's decision D10 (log entry 10). -/
def Obligations.IllegalWordsAreExactlyThese : Prop :=
  ∀ w : Word,
    (decodeWord w = .error (.unrecognizedOpcode w) ↔
      w.toNat / 4096 ∉ [0, 1, 2, 3, 4, 5, 6, 7, 10, 13] ∨ (w.toNat / 4096 = 0 ∧ w.toNat % 16 ∉ [0, 14])) ∧
    ((∃ i, decodeWord w = .instr i) ∨ decodeWord w = .error (.unrecognizedOpcode w))

/-- Rules R73, R79, R81: every well-formed instruction has a word that decodes back to it, with every operand at every
value, and `CompareRegisters` with `wantEqual = false` has none. -/
def Obligations.EncodedInstructionDecodesBack : Prop :=
  (∀ i : Instr, i.wellFormed = true → ∃ w, encode i = some w ∧ decodeWord w = .instr i) ∧
  (∀ x y : Nibble, encode (.seReg x y false) = none) ∧
  (∀ w i, decodeWord w = .instr i → i.wellFormed = true)

/-- Rules R68, R69, R81 (spec decision D10, log entry 10): encoding what a word decodes to gives the word back on every
bit the decoder looks at. -/
def Obligations.WordReencodesButForIgnoredBits : Prop :=
  ∀ (w : Word) (i : Instr), decodeWord w = .instr i →
    ∃ w', encode i = some w' ∧ w' &&& significantBits i = w &&& significantBits i

/-- Words written out from the encodings of rule R67 (vectors T2) decode to the instructions they stand for; the bytes are
big-endian (rule R41, examples E4 and E5). -/
def Obligations.WrittenWordsDecodeRight : Prop :=
  decodeBytes [0x1A, 0xBC] = (.instr (.jp 0xABC), []) ∧ decodeBytes [0x6A, 0x07] = (.instr (.ldImm 0xA 0x07), []) ∧
  decodeWord 0x00E0 = .instr .cls ∧ decodeWord 0x00EE = .instr .ret ∧ decodeWord 0x2200 = .instr (.call 0x200) ∧
  decodeWord 0x3005 = .instr (.seImm 0 5) ∧ decodeWord 0x4A5C = .instr (.sneImm 10 0x5C) ∧
  decodeWord 0x5010 = .instr (.seReg 0 1 true) ∧ decodeWord 0x7302 = .instr (.addImm 3 2) ∧
  decodeWord 0xA212 = .instr (.ldI 0x212) ∧ decodeWord 0xD013 = .instr (.drw 0 1 3) ∧
  decodeWord 0x9010 = .error (.unrecognizedOpcode 0x9010)

/-! ### The cycle -/

/-- Rules R90, R92, R94, R41: on a running machine, when the two bytes at `pc`, high byte first, are inside the loaded
extent and decode to `i`, a tick is the execution of `i` on the state with `pc` advanced by 2. That `pc` need not be even
is the spec's decision D9, a choice and no plain rule of the document (log entry 9; rule R43 marks it so). -/
def Obligations.StepRunsTheDecodedInstruction : Prop :=
  ∀ (s : State) (hi lo : Byte) (i : Instr), s.status = .running →
    s.loadBase ≤ s.pc.toNat → s.pc.toNat + 2 ≤ s.loadBase + s.imgLen →
    s.readByte? s.pc.toNat = some hi → s.readByte? (s.pc.toNat + 1) = some lo → decodeWord (hi ++ lo) = .instr i →
    step s = exec i { s with pc := s.pc + 2 }

/-- Rule R151: fetching past the end of the loaded program halts with EndOfProgram, nothing else changes, and the next
tick changes nothing. -/
def Obligations.FetchPastTheEndHalts : Prop :=
  ∀ s : State, s.status = .running → s.loadBase + s.imgLen < s.pc.toNat + 2 →
    ∃ t, step s = .next t ∧ t.status = .halted .endOfProgram ∧ s.UnchangedBut [.status] t ∧ step t = .next t

/-- A fetch below `LOAD_BASE` halts with EndOfProgram and nothing else changes: the spec's decision D8 (log entry 8), no
plain rule of the document. -/
def Obligations.FetchBelowTheBaseHalts : Prop :=
  ∀ s : State, s.status = .running → s.pc.toNat < s.loadBase →
    ∃ t, step s = .next t ∧ t.status = .halted .endOfProgram ∧ s.UnchangedBut [.status] t

/-- Rules R93, R152: a fetched word that does not decode halts with InvalidInstruction carrying the full word; `pc` and
everything else but the status are unchanged. That `pc` stays at the word is what rule R93 marks as derived in the spec,
from the order of rule R90; rule R152 says it without a mark ("`pc` points at the word"). -/
def Obligations.UndecodableWordHalts : Prop :=
  ∀ (s : State) (hi lo : Byte) (e : DecodeError), s.status = .running →
    s.loadBase ≤ s.pc.toNat → s.pc.toNat + 2 ≤ s.loadBase + s.imgLen →
    s.readByte? s.pc.toNat = some hi → s.readByte? (s.pc.toNat + 1) = some lo → decodeWord (hi ++ lo) = .error e →
    ∃ t, step s = .next t ∧ t.status = .halted (.invalidInstruction (hi ++ lo)) ∧ s.UnchangedBut [.status] t

/-- The model's only fault, its own choice (log entry 16), no rule of the spec: a fetch that the loaded extent permits but
whose two bytes are not both inside the memory buffer. No state that meets the invariant raises it. -/
def Obligations.FetchWithNoMemoryFaults : Prop :=
  ∀ s : State, s.status = .running → s.fetchPermitted → Config.memSize < s.pc.toNat + 2 →
    step s = .fault (.fetchOutsideMemory s.pc.toNat)

/-- Rule R96: Halted is terminal: however many ticks follow, a halted machine is exactly as it was, its first reason
included. -/
def Obligations.HaltedIsTerminal : Prop :=
  ∀ (s : State) (r : HaltReason) (k : Nat), s.status = .halted r → Host.Core.run core k s = .next s

/-- Rule R14 (derived in the spec): where each instruction leaves `pc` at the end of a cycle that does not halt, `a` being
the address it was fetched from. -/
def Obligations.PcAtTheEndOfTheCycle : Prop :=
  ∀ (s t : State) (w : Word) (i : Instr), s.status = .running → s.fetchPermitted →
    s.readWord? s.pc.toNat = some w → decodeWord w = .instr i → step s = .next t → t.status = .running →
    match i with
    | .cls => t.pc = s.pc + 2
    | .ret => ∃ k : Fin Config.stackDepth, k.val + 1 = s.sp.val ∧ t.pc = s.stack[k.val]'k.isLt
    | .jp addr => t.pc.toNat = addr.toNat
    | .call addr => t.pc.toNat = addr.toNat
    | .seImm x imm => t.pc = if s.reg x = imm then s.pc + 4 else s.pc + 2
    | .sneImm x imm => t.pc = if s.reg x = imm then s.pc + 2 else s.pc + 4
    | .seReg x y _ => t.pc = if s.reg x = s.reg y then s.pc + 4 else s.pc + 2
    | .ldImm _ _ => t.pc = s.pc + 2
    | .addImm _ _ => t.pc = s.pc + 2
    | .ldI _ => t.pc = s.pc + 2
    | .drw _ _ _ => t.pc = s.pc + 2

/-- Rule R99 (derived in the spec): what `pc` holds when a tick halts the machine, by reason. -/
def Obligations.PcInTheHaltedState : Prop :=
  ∀ (s t : State) (r : HaltReason), s.status = .running → step s = .next t → t.status = .halted r →
    match r with
    | .endOfProgram => t.pc = s.pc
    | .invalidInstruction w => t.pc = s.pc ∧ s.readWord? s.pc.toNat = some w
    | .stackOverflow => t.pc = s.pc + 2
    | .stackUnderflow => t.pc = s.pc + 2
    | .outOfBoundsRead => t.pc = s.pc + 2

/-- Rules R95, R150, R153 to R155: an instruction changes the status only by its own fault: CallSubroutine at capacity,
Return on the empty stack, Draw past the end of memory; no other instruction halts. -/
def Obligations.OnlyTheirOwnFaultsHaltInstructions : Prop :=
  ∀ (i : Instr) (s t : State), exec i s = .next t → t.status ≠ s.status →
    (∃ addr, i = .call addr ∧ s.sp.val = Config.stackDepth ∧ t.status = .halted .stackOverflow) ∨
    (i = .ret ∧ s.sp.val = 0 ∧ t.status = .halted .stackUnderflow) ∨
    (∃ x y n, i = .drw x y n ∧ 0 < n.toNat ∧ Config.memSize < s.index.toNat + n.toNat ∧
      t.status = .halted .outOfBoundsRead)

/-! ### The instructions: each completes, with its result and its frame -/

/-- Rule R140: ClearScreen turns every cell off; no other state changes, `x[15]` included. That every word with nibble 0
and nibble 3 zero is ClearScreen is the spec's decision D10 (log entry 10). -/
def Obligations.ClearScreenTurnsEveryCellOff : Prop :=
  (∀ w : Word, w &&& 0xF00F = 0x0000 → decodeWord w = .instr .cls) ∧
  ∀ s : State, ∃ t, exec .cls s = .next t ∧ (∀ px py, t.grid.pixel px py = false) ∧ s.UnchangedBut [.grid] t

/-- Rule R110: Jump sets `pc` to the zero-extended address and changes nothing else. -/
def Obligations.JumpSetsTheProgramCounter : Prop :=
  (∀ w : Word, w &&& 0xF000 = 0x1000 → decodeWord w = .instr (.jp (w.extractLsb' 0 12))) ∧
  ∀ (addr : Addr) (s : State), ∃ t, exec (.jp addr) s = .next t ∧ t.pc.toNat = addr.toNat ∧ s.UnchangedBut [.pc] t

/-- Rule R111: CallSubroutine below capacity pushes the advanced `pc` and sets `pc` to the address; at capacity it halts
with StackOverflow, nothing pushed and `pc` not redirected. The capacity's number, 16, is log entry 3. -/
def Obligations.CallPushesTheReturnAddressOrOverflows : Prop :=
  (∀ w : Word, w &&& 0xF000 = 0x2000 → decodeWord w = .instr (.call (w.extractLsb' 0 12))) ∧
  (∀ (addr : Addr) (s : State) (k : Fin Config.stackDepth), s.sp.val = k.val → ∃ t, exec (.call addr) s = .next t ∧
    t.stack[k.val]'k.isLt = s.pc ∧ t.sp.val = k.val + 1 ∧ t.pc.toNat = addr.toNat ∧
    (∀ j : Fin Config.stackDepth, j ≠ k → t.stack[j.val]'j.isLt = s.stack[j.val]'j.isLt) ∧
    s.UnchangedBut [.pc, .stack] t) ∧
  (∀ (addr : Addr) (s : State), s.sp.val = Config.stackDepth → ∃ t, exec (.call addr) s = .next t ∧
    t.status = .halted .stackOverflow ∧ s.UnchangedBut [.status] t)

/-- Rule R112: Return on a nonempty stack pops its most recent entry into `pc`, all 16 bits, the slots unchanged; on the
empty stack it halts with StackUnderflow. The ignored bits of its encoding are the spec's decision D10 (log entry 10). -/
def Obligations.ReturnPopsIntoTheProgramCounterOrUnderflows : Prop :=
  (∀ w : Word, w &&& 0xF00F = 0x000E → decodeWord w = .instr .ret) ∧
  (∀ (s : State) (k : Fin Config.stackDepth), s.sp.val = k.val + 1 → ∃ t, exec .ret s = .next t ∧
    t.pc = s.stack[k.val]'k.isLt ∧ t.sp.val = k.val ∧
    (∀ j : Fin Config.stackDepth, t.stack[j.val]'j.isLt = s.stack[j.val]'j.isLt) ∧ s.UnchangedBut [.pc, .stack] t) ∧
  (∀ s : State, s.sp.val = 0 → ∃ t, exec .ret s = .next t ∧
    t.status = .halted .stackUnderflow ∧ s.UnchangedBut [.status] t)

/-- Rule R120: `SE Vx, byte` skips the next instruction exactly when `x[X]` equals `KK`; only `pc` changes. -/
def Obligations.SkipIfEqualImmediate : Prop :=
  (∀ w : Word, w &&& 0xF000 = 0x3000 → decodeWord w = .instr (.seImm (w.extractLsb' 8 4) (w.extractLsb' 0 8))) ∧
  ∀ (x : Nibble) (imm : Byte) (s : State), ∃ t, exec (.seImm x imm) s = .next t ∧
    t.pc = (if s.reg x = imm then s.pc + 2 else s.pc) ∧ s.UnchangedBut [.pc] t

/-- Rule R121: `SNE Vx, byte` skips the next instruction exactly when `x[X]` differs from `KK`; only `pc` changes. -/
def Obligations.SkipIfNotEqualImmediate : Prop :=
  (∀ w : Word, w &&& 0xF000 = 0x4000 → decodeWord w = .instr (.sneImm (w.extractLsb' 8 4) (w.extractLsb' 0 8))) ∧
  ∀ (x : Nibble) (imm : Byte) (s : State), ∃ t, exec (.sneImm x imm) s = .next t ∧
    t.pc = (if s.reg x ≠ imm then s.pc + 2 else s.pc) ∧ s.UnchangedBut [.pc] t

/-- Rule R122: CompareRegisters skips exactly when `x[X] = x[Y]` has the truth value `wantEqual`, which the decoder always
gives as true; only `pc` changes. The ignored nibble 3 is the spec's decision D10 (log entry 10). -/
def Obligations.SkipByComparingRegisters : Prop :=
  (∀ w : Word, w &&& 0xF000 = 0x5000 →
    decodeWord w = .instr (.seReg (w.extractLsb' 8 4) (w.extractLsb' 4 4) true)) ∧
  ∀ (x y : Nibble) (wantEqual : Bool) (s : State), ∃ t, exec (.seReg x y wantEqual) s = .next t ∧
    t.pc = (if (s.reg x = s.reg y ↔ wantEqual = true) then s.pc + 2 else s.pc) ∧ s.UnchangedBut [.pc] t

/-- Rule R130: SetImmediate overwrites `x[X]` with `KK`; no other register and nothing else changes. -/
def Obligations.LoadImmediateOverwritesOneRegister : Prop :=
  (∀ w : Word, w &&& 0xF000 = 0x6000 → decodeWord w = .instr (.ldImm (w.extractLsb' 8 4) (w.extractLsb' 0 8))) ∧
  ∀ (x : Nibble) (imm : Byte) (s : State), ∃ t, exec (.ldImm x imm) s = .next t ∧ t.reg x = imm ∧
    (∀ j, j ≠ x → t.reg j = s.reg j) ∧ s.UnchangedBut [.regs] t

/-- Rule R131: AddImmediate adds modulo 256; the carry goes nowhere: no other register, the flag register included, and
nothing else changes. -/
def Obligations.AddImmediateWrapsWithoutAFlag : Prop :=
  (∀ w : Word, w &&& 0xF000 = 0x7000 → decodeWord w = .instr (.addImm (w.extractLsb' 8 4) (w.extractLsb' 0 8))) ∧
  ∀ (x : Nibble) (imm : Byte) (s : State), ∃ t, exec (.addImm x imm) s = .next t ∧
    (t.reg x).toNat = ((s.reg x).toNat + imm.toNat) % 256 ∧
    (∀ j, j ≠ x → t.reg j = s.reg j) ∧ s.UnchangedBut [.regs] t

/-- Rule R132: SetIndex sets `I` to the zero-extended 12-bit value; nothing else changes. -/
def Obligations.SetIndexZeroExtends : Prop :=
  (∀ w : Word, w &&& 0xF000 = 0xA000 → decodeWord w = .instr (.ldI (w.extractLsb' 0 12))) ∧
  ∀ (addr : Addr) (s : State), ∃ t, exec (.ldI addr) s = .next t ∧ t.index.toNat = addr.toNat ∧
    s.UnchangedBut [.index] t

/-- Rules R141, R142, R144 (c): a Draw whose rows all lie in memory (no row at all for height 0) XORs the sprite into the
grid cell by cell, clipped, at `(x[X] mod 64, x[Y] mod 32)` as they were on entry, sets `x[15]` to 1 when a sprite bit met
a lit cell and to 0 otherwise, and changes nothing else. The loop of the meaning against the closed form of the sprite.
`pixel(column, row)` is the spec's decision D13 (log entry 13). -/
def Obligations.DrawXorsTheSpriteIntoTheGrid : Prop :=
  ∀ (x y n : Nibble) (s : State), n.toNat = 0 ∨ s.index.toNat + n.toNat ≤ Config.memSize →
    ∃ t, exec (.drw x y n) s = .next t ∧
      (∀ px py, t.grid.pixel px py =
        (s.grid.pixel px py ^^ s.spriteBit ((s.reg x).toNat % 64) ((s.reg y).toNat % 32) n.toNat px.val py.val)) ∧
      (s.SpriteHits ((s.reg x).toNat % 64) ((s.reg y).toNat % 32) n.toNat → t.reg 15 = 1) ∧
      (¬ s.SpriteHits ((s.reg x).toNat % 64) ((s.reg y).toNat % 32) n.toNat → t.reg 15 = 0) ∧
      (∀ j, j ≠ 15 → t.reg j = s.reg j) ∧ s.UnchangedBut [.regs, .grid] t

/-- Rule R143: a Draw that reaches past the end of memory halts with OutOfBoundsRead; the rows before the first row with no
memory under it are drawn, no register is written, `x[15]` included, and nothing else changes. That the earlier rows stay
drawn is the spec's decision D11 (log entry 11). That it halts also where every row past memory is clipped by the bottom
edge, whose bytes are read and checked all the same, is the spec's decision D12 (log entry 12). -/
def Obligations.DrawPastMemoryKeepsTheRowsBefore : Prop :=
  ∀ (x y n : Nibble) (s : State), 0 < n.toNat → Config.memSize < s.index.toNat + n.toNat →
    ∃ t, exec (.drw x y n) s = .next t ∧ t.status = .halted .outOfBoundsRead ∧
      (∀ px py, t.grid.pixel px py =
        (s.grid.pixel px py ^^ s.spriteBit ((s.reg x).toNat % 64) ((s.reg y).toNat % 32)
          (Config.memSize - s.index.toNat) px.val py.val)) ∧
      s.UnchangedBut [.grid, .status] t

/-- Rule R142 and rule R144 (b): a Draw changes no cell outside the rectangle of columns `x0` to `x0 + 7` and rows `y0` to
`y0 + N - 1`: with `x0 = 60` no cell left of column 60, so nothing wraps; on the halting path too. -/
def Obligations.DrawTouchesOnlyItsRectangle : Prop :=
  ∀ (x y n : Nibble) (s t : State) (px : Fin Config.gridW) (py : Fin Config.gridH), exec (.drw x y n) s = .next t →
    (px.val < (s.reg x).toNat % 64 ∨ (s.reg x).toNat % 64 + 8 ≤ px.val ∨
      py.val < (s.reg y).toNat % 32 ∨ (s.reg y).toNat % 32 + n.toNat ≤ py.val) →
    t.grid.pixel px py = s.grid.pixel px py

/-- Rule R144 (a): two successive Draws of one sprite at the same coordinates restore the grid exactly; the second sets
`x[15]` to 1 exactly when some cell under a sprite bit was off before the first; and on a grid with no lit cell the first
leaves `x[15]` at 0. -/
def Obligations.DrawTwiceRestoresTheGrid : Prop :=
  ∀ (x y n : Nibble) (s t : State), exec (.drw x y n) s = .next t → t.status = s.status → s.status = .running →
    (t.reg x).toNat % 64 = (s.reg x).toNat % 64 → (t.reg y).toNat % 32 = (s.reg y).toNat % 32 →
    ((∀ px py, s.grid.pixel px py = false) → t.reg 15 = 0) ∧
    ∃ u, exec (.drw x y n) t = .next u ∧ (∀ px py, u.grid.pixel px py = s.grid.pixel px py) ∧
      (u.reg 15 = 1 ↔ ∃ px py, s.spriteBit ((s.reg x).toNat % 64) ((s.reg y).toNat % 32) n.toNat px.val py.val = true ∧
        s.grid.pixel px py = false) ∧
      (u.reg 15 = 0 ∨ u.reg 15 = 1)

/-! ### Rules about the whole machine -/

/-- Rules R11, R12, R17, R18, R24: what only its owners write: a register, SetImmediate and AddImmediate that name it and,
of register 15 alone, a Draw, with 0 or 1; `I`, SetIndex; the stack, CallSubroutine and Return; a cell, ClearScreen and
Draw. -/
def Obligations.OnlyItsOwnersWriteAPart : Prop :=
  ∀ (i : Instr) (s t : State), exec i s = .next t →
    (∀ r, t.reg r ≠ s.reg r → (∃ imm, i = .ldImm r imm) ∨ (∃ imm, i = .addImm r imm) ∨
      (∃ x y n, i = .drw x y n ∧ r = 15 ∧ (t.reg r = 0 ∨ t.reg r = 1))) ∧
    (t.index ≠ s.index → ∃ addr, i = .ldI addr) ∧
    ((t.sp ≠ s.sp ∨ t.stack ≠ s.stack) → (∃ addr, i = .call addr) ∨ i = .ret) ∧
    (∀ px py, t.grid.pixel px py ≠ s.grid.pixel px py → i = .cls ∨ ∃ x y n, i = .drw x y n)

/-- Rules R22, R27, R54: no instruction writes memory: after any number of ticks every address reads as before and the
loaded extent is the same. -/
def Obligations.MemoryIsConstantAfterLoad : Prop :=
  ∀ (k : Nat) (s t : State), Host.Core.run core k s = .next t →
    (∀ a, t.readByte? a = s.readByte? a) ∧ t.loadBase = s.loadBase ∧ t.imgLen = s.imgLen

/-- Rules R15, R17, R111, R182: every tick keeps the invariant: memory canonical and inside the buffer, the extent inside
memory, `I` in 12 bits, `pc` at most `MEM_SIZE + 2` (so no addition to it wraps), every live return address at most
`MEM_SIZE`. `MEM_SIZE = 4096` is the spec's decision D1 (log entry 1). -/
def Obligations.EveryTickKeepsTheInvariant : Prop :=
  ∀ s t : State, s.Inv → step s = .next t → t.Inv

/-- The machine right after reset meets the invariant. The bound of `I` rests on the spec's decision D5 (log entry 5), the
bound of `pc` on the model's base 0x200 (log entry 2). -/
def Obligations.ResetMeetsTheInvariant : Prop := State.reset.Inv

/-- Every state a load makes meets the invariant, and so does every state that ticks lead to from it: the corollary over
runs of the step lemma `EveryTickKeepsTheInvariant`. The bound of `I` in the loaded state rests on the spec's decision D5,
`I` is 0 at reset (log entry 5), and `MEM_SIZE = 4096` is its decision D1 (log entry 1). -/
def Obligations.EveryRunFromALoadMeetsTheInvariant : Prop :=
  ∀ (img : List Byte) (base k : Nat) (s t : State), State.load img base = .next s → Host.Core.run core k s = .next t →
    t.Inv

/-- Rule R186 (derived in the spec): from a state that meets the invariant a tick always completes: it answers a next state,
never a fault or a refusal. -/
def Obligations.EveryTickCompletes : Prop :=
  ∀ s : State, s.Inv → ∃ t, step s = .next t

/-- Rule R15 (derived in the spec): where the load base, `pc` and every live return address are even and the instruction
fetched is no Jump or CallSubroutine with an odd target, they are even after the tick. -/
def Obligations.EvenTargetsKeepTheProgramCounterEven : Prop :=
  ∀ s t : State, s.AllEven → step s = .next t →
    (∀ w addr, s.readWord? s.pc.toNat = some w → decodeWord w = .instr (.jp addr) ∨ decodeWord w = .instr (.call addr) →
      addr.toNat % 2 = 0) →
    t.AllEven

/-- Rule R19 (derived in the spec): stack slots at or above `sp` are never observed: two states that differ in them alone
tick to states that differ in them alone, or stop alike. -/
def Obligations.DeadStackSlotsAreNeverObserved : Prop :=
  ∀ s t : State, s.SameLive t →
    match step s, step t with
    | .next s', .next t' => s'.SameLive t'
    | .fault f, .fault g => f = g
    | .refused f, .refused g => f = g
    | _, _ => False

/-- Rule R113 (derived in the spec): a CallSubroutine fetched at `a`, then a Return at its target: the state after the two
ticks is the state before them but for `pc = a + 2` and the slot above the live part of the stack, which holds `a + 2`. -/
def Obligations.CallThenReturnComesBack : Prop :=
  ∀ (s : State) (addr : Addr) (w v : Word) (k : Fin Config.stackDepth),
    s.status = .running → s.fetchPermitted → s.readWord? s.pc.toNat = some w → decodeWord w = .instr (.call addr) →
    s.sp.val = k.val → s.loadBase ≤ addr.toNat → addr.toNat + 2 ≤ s.loadBase + s.imgLen →
    s.readWord? addr.toNat = some v → decodeWord v = .instr .ret →
    Host.Core.run core 2 s = .next { s with pc := s.pc + 2, stack := s.stack.set k.val (s.pc + 2) k.isLt }

/-! ### Reset, load and the host's ports -/

/-- Rule R181: a load of an image that fits, at an even base, copies byte `i` of the image to `LOAD_BASE + i` with no
transformation and records the loaded extent. -/
def Obligations.LoadCopiesTheImage : Prop :=
  ∀ (img : List Byte) (base : Nat), base % 2 = 0 → base + img.length ≤ Config.memSize →
    ∃ t, State.load img base = .next t ∧ (∀ i b, img[i]? = some b → t.readByte? (base + i) = some b) ∧
      t.loadBase = base ∧ t.imgLen = img.length

/-- Rules R33, R180: the state a load leaves: registers 0, `pc` at the base, the stack empty and zero, Running; and, by the
spec's decisions D5, D6 and D7 (log entries 5, 6, 7), `I` 0, every cell off, the free value `MEM_BG` outside the image and
no memory at `MEM_SIZE` and above. -/
def Obligations.LoadResetsTheMachine : Prop :=
  ∀ (img : List Byte) (base : Nat) (t : State), State.load img base = .next t →
    (∀ r, t.reg r = 0) ∧ t.pc.toNat = base ∧ t.sp.val = 0 ∧
    (∀ k : Fin Config.stackDepth, t.stack[k.val]'k.isLt = 0) ∧ t.status = .running ∧
    t.index = 0 ∧ (∀ px py, t.grid.pixel px py = false) ∧
    (∀ a, a < Config.memSize → a < base ∨ base + img.length ≤ a → t.readByte? a = some (Config.memBg a)) ∧
    (∀ a, Config.memSize ≤ a → t.readByte? a = none)

/-- Rule R182 with the spec's decisions D2 and D17 (log entry 15): a load with an odd base, or of an image that does not
fit, is refused by name and makes no state. -/
def Obligations.LoadRefusesWhatBreaksItsPreconditions : Prop :=
  (∀ (img : List Byte) (base : Nat), base % 2 = 1 → State.load img base = .refused (.oddLoadBase base)) ∧
  (∀ (img : List Byte) (base : Nat), base % 2 = 0 → Config.memSize < base + img.length →
    State.load img base = .refused (.imageDoesNotFit base img.length))

/-- `State.reset` is the load of the empty image at the default base 0x200: the model's choice (log entries 2 and 19). The
first tick of an empty image halts with EndOfProgram (rule R182). -/
def Obligations.ResetIsTheLoadOfTheEmptyImage : Prop :=
  State.load [] 0x200 = .next State.reset ∧ step State.reset = .next { State.reset with status := .halted .endOfProgram }

/-- Rule R183: the first instruction of a loaded image is fetched from `LOAD_BASE` on the first tick. -/
def Obligations.FirstTickRunsTheInstructionAtTheBase : Prop :=
  ∀ (hi lo : Byte) (rest : List Byte) (base : Nat) (s : State) (i : Instr),
    State.load (hi :: lo :: rest) base = .next s → decodeWord (hi ++ lo) = .instr i →
    step s = exec i { s with pc := BitVec.ofNat 16 (base + 2) }

/-- Rule R170 (spec decision D14, log entry 14), rule R31: the status port's code for each status and its halt word, valid
with code 2 alone. -/
def Obligations.StatusPortReportsTheReason : Prop :=
  ∀ s : State,
    (s.status = .running → s.statusCode = 0) ∧ (s.status = .halted .endOfProgram → s.statusCode = 1) ∧
    (∀ w, s.status = .halted (.invalidInstruction w) → s.statusCode = 2 ∧ s.haltWord = some w) ∧
    (s.status = .halted .stackOverflow → s.statusCode = 3) ∧ (s.status = .halted .stackUnderflow → s.statusCode = 4) ∧
    (s.status = .halted .outOfBoundsRead → s.statusCode = 5) ∧ (s.statusCode ≠ 2 → s.haltWord = none)
end

