-- ==== Sys2Proof/Laws/Memory.lean ====
section
/-! SUPPORT. The memory list: every operation on it keeps the canonical form, and a read after a write gives what was
written and leaves every other address alone. -/

namespace Sys2Proof.Machine

theorem Memory.byteAt?_put (m : Memory) (a b : Nat) (v : Byte) (h : m.wf) :
    (m.put a v).byteAt? b = if b = a then some v else m.byteAt? b := by
  induction m with
  | nil =>
    by_cases e : b = a
    · simp [Memory.put, Memory.byteAt?, e]
    · simp [Memory.put, Memory.byteAt?, e, Ne.symm e]
  | cons c m ih =>
    obtain ⟨k, w⟩ := c
    have ih := ih (List.pairwise_cons.1 h).2
    by_cases e : b = a
    · subst e
      by_cases h1 : b < k
      · simp [Memory.put, Memory.byteAt?, h1]
      · by_cases h2 : b = k
        · simp [Memory.put, Memory.byteAt?, h2]
        · simp [Memory.put, Memory.byteAt?, h1, h2, Ne.symm h2, ih]
    · rw [if_neg e] at ih ⊢
      by_cases h1 : a < k
      · simp [Memory.put, Memory.byteAt?, h1, Ne.symm e]
      · by_cases h2 : a = k
        · subst h2; simp [Memory.put, Memory.byteAt?, Ne.symm e]
        · simp [Memory.put, Memory.byteAt?, h1, h2, ih]

theorem Memory.keys_put (m : Memory) (a k : Nat) (v : Byte) (hk : k ∈ (m.put a v).map Prod.fst) :
    k = a ∨ k ∈ m.map Prod.fst := by
  induction m with
  | nil => simpa [Memory.put] using hk
  | cons c m ih =>
    obtain ⟨j, w⟩ := c
    unfold Memory.put at hk
    split_ifs at hk with h1 h2
    · simpa using hk
    · subst h2; simp at hk ⊢; tauto
    · simp only [List.map_cons, List.mem_cons] at hk ⊢
      rcases hk with hk | hk
      · exact .inr (.inl hk)
      · rcases ih hk with h | h
        · exact .inl h
        · exact .inr (.inr h)

/-- Writing a byte keeps the canonical form. -/
theorem Memory.wf_put (m : Memory) (a : Nat) (v : Byte) (h : m.wf) : (m.put a v).wf := by
  induction m with
  | nil => simp [Memory.put, Memory.wf]
  | cons c m ih =>
    obtain ⟨k, w⟩ := c
    obtain ⟨hlt, hm⟩ := List.pairwise_cons.1 h
    unfold Memory.put
    split_ifs with h1 h2
    · refine List.pairwise_cons.2 ⟨fun j hj => ?_, h⟩
      rcases List.mem_cons.1 hj with rfl | hj
      · exact h1
      · exact lt_trans h1 (hlt j hj)
    · subst h2; exact List.pairwise_cons.2 ⟨hlt, hm⟩
    · refine List.pairwise_cons.2 ⟨fun j hj => ?_, ih hm⟩
      rcases Memory.keys_put m a j v hj with rfl | hj
      · simp at h1 ⊢; omega
      · exact hlt j hj

/-- Writing an image keeps the canonical form. -/
theorem Memory.wf_putBytes (m : Memory) (a : Nat) (bs : List Byte) (h : m.wf) : (m.putBytes a bs).wf := by
  induction bs generalizing m a with
  | nil => exact h
  | cons b bs ih => exact ih _ _ (Memory.wf_put m a b h)

/-- An image written at `a` is read back byte for byte, and every other address reads as before (rule R181). -/
theorem Memory.byteAt?_putBytes (m : Memory) (a b : Nat) (bs : List Byte) (h : m.wf) :
    (m.putBytes a bs).byteAt? b = if a ≤ b ∧ b < a + bs.length then bs[b - a]? else m.byteAt? b := by
  induction bs generalizing m a with
  | nil =>
    have : ¬ (a ≤ b ∧ b < a + 0) := by omega
    simp only [Memory.putBytes, List.length_nil, if_neg this]
  | cons v bs ih =>
    rw [Memory.putBytes, ih _ _ (Memory.wf_put m a v h), Memory.byteAt?_put m a b v h]
    rcases Nat.lt_trichotomy b a with e | rfl | e
    · simp only [List.length_cons]
      rw [if_neg (by omega), if_neg (by omega), if_neg (by omega)]
    · simp
    · obtain ⟨d, rfl⟩ : ∃ d, b = a + 1 + d := ⟨b - (a + 1), by omega⟩
      have e1 : a + 1 + d - a = d + 1 := by omega
      simp only [List.length_cons, e1, Nat.add_sub_cancel_left, List.getElem?_cons_succ]
      by_cases hd : d < bs.length
      · rw [if_pos (by omega), if_pos (by omega)]
      · rw [if_neg (by omega), if_neg (by omega), if_neg (by omega)]

theorem Memory.keys_putBytes (m : Memory) (a k : Nat) (bs : List Byte) (hk : k ∈ (m.putBytes a bs).map Prod.fst) :
    (a ≤ k ∧ k < a + bs.length) ∨ k ∈ m.map Prod.fst := by
  induction bs generalizing m a with
  | nil => exact .inr hk
  | cons v bs ih =>
    simp only [List.length_cons]
    rcases ih _ _ hk with h | h
    · left; omega
    · rcases Memory.keys_put m a k v h with rfl | h
      · left; omega
      · exact .inr h

/-- The memory right after reset is in canonical form. -/
theorem Memory.wf_reset : State.reset.mem.wf := List.Pairwise.nil

/-- A read answers a byte exactly inside the memory buffer (20_memory.md rule R49). -/
theorem State.readByte?_isSome (s : State) (a : Nat) : (s.readByte? a).isSome ↔ a < Config.memSize := by
  unfold State.readByte?; split <;> simp_all

/-- A read depends on the memory list alone. -/
theorem State.readByte?_congr (s t : State) (h : s.mem = t.mem) (a : Nat) : s.readByte? a = t.readByte? a := by
  simp [State.readByte?, h]

/-- A word is read when both its bytes are, the byte at the lower address in the high half (rule R41). -/
theorem State.readWord?_eq_some (s : State) (a : Nat) (w : Word) :
    s.readWord? a = some w ↔
      ∃ hi lo, s.readByte? a = some hi ∧ s.readByte? (a + 1) = some lo ∧ wordOfBytes hi lo = w := by
  unfold State.readWord?
  cases s.readByte? a <;> cases s.readByte? (a + 1) <;> simp

end Sys2Proof.Machine
end

