-- ==== Sys2Proof/Laws/State.lean ====
section
/-! SUPPORT. One lemma per field per update, so that no proof unfolds a record update; and how registers, memory reads
and the ports see each update. -/

namespace Sys2Proof.Machine

variable (s : State)

@[simp] theorem State.setReg_regs (i : Nibble) (v : Byte) : (s.setReg i v).regs = s.regs.set i.toNat v i.isLt := rfl
@[simp] theorem State.setReg_pc (i : Nibble) (v : Byte) : (s.setReg i v).pc = s.pc := rfl
@[simp] theorem State.setReg_index (i : Nibble) (v : Byte) : (s.setReg i v).index = s.index := rfl
@[simp] theorem State.setReg_stack (i : Nibble) (v : Byte) : (s.setReg i v).stack = s.stack := rfl
@[simp] theorem State.setReg_sp (i : Nibble) (v : Byte) : (s.setReg i v).sp = s.sp := rfl
@[simp] theorem State.setReg_mem (i : Nibble) (v : Byte) : (s.setReg i v).mem = s.mem := rfl
@[simp] theorem State.setReg_loadBase (i : Nibble) (v : Byte) : (s.setReg i v).loadBase = s.loadBase := rfl
@[simp] theorem State.setReg_imgLen (i : Nibble) (v : Byte) : (s.setReg i v).imgLen = s.imgLen := rfl
@[simp] theorem State.setReg_grid (i : Nibble) (v : Byte) : (s.setReg i v).grid = s.grid := rfl
@[simp] theorem State.setReg_status (i : Nibble) (v : Byte) : (s.setReg i v).status = s.status := rfl

@[simp] theorem State.setPc_regs (v : Word) : (s.setPc v).regs = s.regs := rfl
@[simp] theorem State.setPc_pc (v : Word) : (s.setPc v).pc = v := rfl
@[simp] theorem State.setPc_index (v : Word) : (s.setPc v).index = s.index := rfl
@[simp] theorem State.setPc_stack (v : Word) : (s.setPc v).stack = s.stack := rfl
@[simp] theorem State.setPc_sp (v : Word) : (s.setPc v).sp = s.sp := rfl
@[simp] theorem State.setPc_mem (v : Word) : (s.setPc v).mem = s.mem := rfl
@[simp] theorem State.setPc_loadBase (v : Word) : (s.setPc v).loadBase = s.loadBase := rfl
@[simp] theorem State.setPc_imgLen (v : Word) : (s.setPc v).imgLen = s.imgLen := rfl
@[simp] theorem State.setPc_grid (v : Word) : (s.setPc v).grid = s.grid := rfl
@[simp] theorem State.setPc_status (v : Word) : (s.setPc v).status = s.status := rfl

@[simp] theorem State.advance_regs : s.advance.regs = s.regs := rfl
@[simp] theorem State.advance_pc : s.advance.pc = s.pc + 2 := rfl
@[simp] theorem State.advance_index : s.advance.index = s.index := rfl
@[simp] theorem State.advance_stack : s.advance.stack = s.stack := rfl
@[simp] theorem State.advance_sp : s.advance.sp = s.sp := rfl
@[simp] theorem State.advance_mem : s.advance.mem = s.mem := rfl
@[simp] theorem State.advance_loadBase : s.advance.loadBase = s.loadBase := rfl
@[simp] theorem State.advance_imgLen : s.advance.imgLen = s.imgLen := rfl
@[simp] theorem State.advance_grid : s.advance.grid = s.grid := rfl
@[simp] theorem State.advance_status : s.advance.status = s.status := rfl

@[simp] theorem State.setIndex_regs (v : Word) : (s.setIndex v).regs = s.regs := rfl
@[simp] theorem State.setIndex_pc (v : Word) : (s.setIndex v).pc = s.pc := rfl
@[simp] theorem State.setIndex_index (v : Word) : (s.setIndex v).index = v := rfl
@[simp] theorem State.setIndex_stack (v : Word) : (s.setIndex v).stack = s.stack := rfl
@[simp] theorem State.setIndex_sp (v : Word) : (s.setIndex v).sp = s.sp := rfl
@[simp] theorem State.setIndex_mem (v : Word) : (s.setIndex v).mem = s.mem := rfl
@[simp] theorem State.setIndex_loadBase (v : Word) : (s.setIndex v).loadBase = s.loadBase := rfl
@[simp] theorem State.setIndex_imgLen (v : Word) : (s.setIndex v).imgLen = s.imgLen := rfl
@[simp] theorem State.setIndex_grid (v : Word) : (s.setIndex v).grid = s.grid := rfl
@[simp] theorem State.setIndex_status (v : Word) : (s.setIndex v).status = s.status := rfl

@[simp] theorem State.raise_regs (r : HaltReason) : (s.raise r).regs = s.regs := rfl
@[simp] theorem State.raise_pc (r : HaltReason) : (s.raise r).pc = s.pc := rfl
@[simp] theorem State.raise_index (r : HaltReason) : (s.raise r).index = s.index := rfl
@[simp] theorem State.raise_stack (r : HaltReason) : (s.raise r).stack = s.stack := rfl
@[simp] theorem State.raise_sp (r : HaltReason) : (s.raise r).sp = s.sp := rfl
@[simp] theorem State.raise_mem (r : HaltReason) : (s.raise r).mem = s.mem := rfl
@[simp] theorem State.raise_loadBase (r : HaltReason) : (s.raise r).loadBase = s.loadBase := rfl
@[simp] theorem State.raise_imgLen (r : HaltReason) : (s.raise r).imgLen = s.imgLen := rfl
@[simp] theorem State.raise_grid (r : HaltReason) : (s.raise r).grid = s.grid := rfl
@[simp] theorem State.raise_status (r : HaltReason) : (s.raise r).status = .halted r := rfl

@[simp] theorem State.setGrid_regs (g : Grid) : (s.setGrid g).regs = s.regs := rfl
@[simp] theorem State.setGrid_pc (g : Grid) : (s.setGrid g).pc = s.pc := rfl
@[simp] theorem State.setGrid_index (g : Grid) : (s.setGrid g).index = s.index := rfl
@[simp] theorem State.setGrid_stack (g : Grid) : (s.setGrid g).stack = s.stack := rfl
@[simp] theorem State.setGrid_sp (g : Grid) : (s.setGrid g).sp = s.sp := rfl
@[simp] theorem State.setGrid_mem (g : Grid) : (s.setGrid g).mem = s.mem := rfl
@[simp] theorem State.setGrid_loadBase (g : Grid) : (s.setGrid g).loadBase = s.loadBase := rfl
@[simp] theorem State.setGrid_imgLen (g : Grid) : (s.setGrid g).imgLen = s.imgLen := rfl
@[simp] theorem State.setGrid_grid (g : Grid) : (s.setGrid g).grid = g := rfl
@[simp] theorem State.setGrid_status (g : Grid) : (s.setGrid g).status = s.status := rfl

@[simp] theorem State.setFlag_regs (b : Bool) : (s.setFlag b).regs = s.regs.set flagReg.toNat (flagByte b) flagReg.isLt := rfl
@[simp] theorem State.setFlag_pc (b : Bool) : (s.setFlag b).pc = s.pc := rfl
@[simp] theorem State.setFlag_index (b : Bool) : (s.setFlag b).index = s.index := rfl
@[simp] theorem State.setFlag_stack (b : Bool) : (s.setFlag b).stack = s.stack := rfl
@[simp] theorem State.setFlag_sp (b : Bool) : (s.setFlag b).sp = s.sp := rfl
@[simp] theorem State.setFlag_mem (b : Bool) : (s.setFlag b).mem = s.mem := rfl
@[simp] theorem State.setFlag_loadBase (b : Bool) : (s.setFlag b).loadBase = s.loadBase := rfl
@[simp] theorem State.setFlag_imgLen (b : Bool) : (s.setFlag b).imgLen = s.imgLen := rfl
@[simp] theorem State.setFlag_grid (b : Bool) : (s.setFlag b).grid = s.grid := rfl
@[simp] theorem State.setFlag_status (b : Bool) : (s.setFlag b).status = s.status := rfl

@[simp] theorem State.setReg_readByte (i : Nibble) (v : Byte) (a : Nat) : (s.setReg i v).readByte? a = s.readByte? a := rfl
@[simp] theorem State.setReg_rowAddr (i : Nibble) (v : Byte) (k : Nat) : (s.setReg i v).rowAddr k = s.rowAddr k := rfl
@[simp] theorem State.setPc_reg (v : Word) (j : Nibble) : (s.setPc v).reg j = s.reg j := rfl
@[simp] theorem State.setPc_readByte (v : Word) (a : Nat) : (s.setPc v).readByte? a = s.readByte? a := rfl
@[simp] theorem State.setPc_rowAddr (v : Word) (k : Nat) : (s.setPc v).rowAddr k = s.rowAddr k := rfl
@[simp] theorem State.advance_reg (j : Nibble) : s.advance.reg j = s.reg j := rfl
@[simp] theorem State.advance_readByte (a : Nat) : s.advance.readByte? a = s.readByte? a := rfl
@[simp] theorem State.advance_rowAddr (k : Nat) : s.advance.rowAddr k = s.rowAddr k := rfl
@[simp] theorem State.setIndex_reg (v : Word) (j : Nibble) : (s.setIndex v).reg j = s.reg j := rfl
@[simp] theorem State.setIndex_readByte (v : Word) (a : Nat) : (s.setIndex v).readByte? a = s.readByte? a := rfl
@[simp] theorem State.raise_reg (r : HaltReason) (j : Nibble) : (s.raise r).reg j = s.reg j := rfl
@[simp] theorem State.raise_readByte (r : HaltReason) (a : Nat) : (s.raise r).readByte? a = s.readByte? a := rfl
@[simp] theorem State.raise_rowAddr (r : HaltReason) (k : Nat) : (s.raise r).rowAddr k = s.rowAddr k := rfl
@[simp] theorem State.setGrid_reg (g : Grid) (j : Nibble) : (s.setGrid g).reg j = s.reg j := rfl
@[simp] theorem State.setGrid_readByte (g : Grid) (a : Nat) : (s.setGrid g).readByte? a = s.readByte? a := rfl
@[simp] theorem State.setGrid_rowAddr (g : Grid) (k : Nat) : (s.setGrid g).rowAddr k = s.rowAddr k := rfl
@[simp] theorem State.setFlag_readByte (b : Bool) (a : Nat) : (s.setFlag b).readByte? a = s.readByte? a := rfl
@[simp] theorem State.setFlag_rowAddr (b : Bool) (k : Nat) : (s.setFlag b).rowAddr k = s.rowAddr k := rfl

/-- A register reads what was last written to it, and a write leaves the other fifteen alone (10_state.md rule R10). -/
theorem State.reg_setReg (i j : Nibble) (v : Byte) : (s.setReg i v).reg j = if j = i then v else s.reg j := by
  unfold State.reg State.setReg
  by_cases h : j = i
  · subst h; simp
  · have : i.toNat ≠ j.toNat := fun e => h (BitVec.eq_of_toNat_eq e.symm)
    simp [this, h]

@[simp] theorem State.reg_setReg_self (i : Nibble) (v : Byte) : (s.setReg i v).reg i = v := by
  simp [State.reg_setReg]

theorem State.reg_setReg_of_ne (i j : Nibble) (v : Byte) (h : j ≠ i) : (s.setReg i v).reg j = s.reg j := by
  simp [State.reg_setReg, h]

/-- Only register 15 is written by a Draw's flag (10_state.md rule R12). -/
theorem State.reg_setFlag (b : Bool) (j : Nibble) :
    (s.setFlag b).reg j = if j = flagReg then flagByte b else s.reg j :=
  s.reg_setReg flagReg j (flagByte b)

end Sys2Proof.Machine
end

