-- ==== Sys2Proof/Laws/Ops.lean ====
section
/-! SUPPORT. One lemma for each shared operation, saying once everything it can do. -/

namespace Sys2Proof.Machine

/-- A push answers exactly below capacity, and then writes the slot at `sp` and counts it (41_control_flow.md R111). -/
theorem State.push?_eq_some (s t : State) (v : Word) :
    s.push? v = some t ↔ ∃ h : s.sp.val < Config.stackDepth,
      t = { s with stack := s.stack.set s.sp.val v h, sp := ⟨s.sp.val + 1, Nat.succ_lt_succ h⟩ } := by
  unfold State.push?
  split_ifs with h
  · simp [h, eq_comm]
  · simp [h]

/-- A push answers nothing exactly at capacity. -/
theorem State.push?_eq_none (s : State) (v : Word) : s.push? v = none ↔ s.sp.val = Config.stackDepth := by
  unfold State.push?
  have := s.sp.isLt
  split_ifs with h
  · simpa using Nat.ne_of_lt h
  · simpa using Nat.le_antisymm (Nat.le_of_lt_succ this) (Nat.le_of_not_lt h)

/-- A pop answers exactly on a nonempty stack, and then takes the slot below `sp` and leaves every slot as it was
(41_control_flow.md R112). -/
theorem State.pop?_eq_some (s t : State) (v : Word) :
    s.pop? = some (v, t) ↔ ∃ (_ : 0 < s.sp.val) (h : s.sp.val - 1 < Config.stackDepth),
      v = s.stack[s.sp.val - 1]'h ∧ t = { s with sp := ⟨s.sp.val - 1, Nat.lt_succ_of_lt h⟩ } := by
  unfold State.pop?
  have := s.sp.isLt
  split_ifs with h
  · have h' : s.sp.val - 1 < Config.stackDepth := by omega
    simp only [Option.some.injEq, Prod.mk.injEq, h, h', exists_true_left]
    exact and_congr eq_comm eq_comm
  · simp [h]

/-- A pop answers nothing exactly on the empty stack. -/
theorem State.pop?_eq_none (s : State) : s.pop? = none ↔ s.sp.val = 0 := by
  unfold State.pop?
  split_ifs with h
  · simpa using Nat.ne_of_gt h
  · simpa using Nat.eq_zero_of_not_pos h

/-- A skip is the advance or nothing (42_conditional_skip.md rule R123). -/
theorem State.skipWhen_eq (s : State) (equal want : Bool) :
    s.skipWhen equal want = s.setPc (if equal = want then s.pc + 2 else s.pc) := by
  unfold State.skipWhen; split <;> rfl

/-- A load answers a state exactly when both preconditions of rule R182 hold. -/
theorem State.load_eq_next (img : List Byte) (base : Nat) (t : State) :
    State.load img base = .next t ↔ loadBaseEven base = true ∧ imageFits base img = true ∧
      t = { State.reset with
        pc := BitVec.ofNat 16 base, mem := Memory.putBytes [] base img, loadBase := base, imgLen := img.length } := by
  unfold State.load
  split_ifs with h1 h2
  · simp [h1, h2, eq_comm]
  · simp [h2]
  · simp [h1]

end Sys2Proof.Machine
end

