-- ==== Sys2Proof/Laws/Control.lean ====
section
/-! SUPPORT. What CallSubroutine and Return answer, case by case (41_control_flow.md rules R111, R112). -/

namespace Sys2Proof.Machine

/-- CallSubroutine below capacity (rule R111). -/
theorem execCall_below_capacity (addr : Addr) (s : State) (h : s.sp.val < Config.stackDepth) :
    execCall addr s = .next { s with
      stack := s.stack.set s.sp.val s.pc h, sp := ⟨s.sp.val + 1, Nat.succ_lt_succ h⟩, pc := zext16 addr } := by
  unfold execCall State.push?; rw [dif_pos h]; rfl

/-- CallSubroutine at capacity (rule R111). -/
theorem execCall_at_capacity (addr : Addr) (s : State) (h : s.sp.val = Config.stackDepth) :
    execCall addr s = .next (s.raise .stackOverflow) := by
  unfold execCall; rw [(s.push?_eq_none s.pc).2 h]

/-- Return on a nonempty stack (rule R112). -/
theorem execRet_nonempty (s : State) (k : Fin Config.stackDepth) (h : s.sp.val = k.val + 1) :
    execRet s = .next { s with sp := ⟨k.val, Nat.lt_succ_of_lt k.isLt⟩, pc := s.stack[k.val]'k.isLt } := by
  have hp : 0 < s.sp.val := by omega
  have hk : s.sp.val - 1 = k.val := by omega
  unfold execRet State.pop?
  rw [dif_pos hp]
  simp only [hk]
  rfl

/-- Return on the empty stack (rule R112). -/
theorem execRet_empty (s : State) (h : s.sp.val = 0) : execRet s = .next (s.raise .stackUnderflow) := by
  unfold execRet; rw [s.pop?_eq_none.2 h]

/-- The zero-extended address is the address (30_encoding.md rule R70). -/
theorem toNat_zext16 (addr : Addr) : (zext16 addr).toNat = addr.toNat := by
  have := addr.isLt
  simp only [zext16, BitVec.toNat_setWidth]
  omega

end Sys2Proof.Machine
end

