-- ==== Sys2Proof/Laws/Decode.lean ====
section
/-! SUPPORT. The fields of a word put together from fields, and a word as its class and its twelve low bits
(30_encoding.md rules R64, R65). -/

namespace Sys2Proof

theorem fieldC_append (c : Nibble) (r : Addr) : fieldC (c ++ r) = c :=
  BitVec.extractLsb'_append_eq_left

theorem fieldNNN_append (c : Nibble) (r : Addr) : fieldNNN (c ++ r) = r :=
  BitVec.extractLsb'_append_eq_right

theorem fieldX_append (c x : Nibble) (k : Byte) : fieldX (c ++ (x ++ k)) = x := by
  apply BitVec.eq_of_getLsbD_eq
  intro i hi
  simp only [fieldX, nibble, BitVec.getLsbD_extractLsb', BitVec.getLsbD_append]
  rw [if_pos (by show 8 + i < 12; omega), if_neg (by show ¬ 8 + i < 8; omega)]
  simp [hi]

theorem fieldKK_append (c x : Nibble) (k : Byte) : fieldKK (c ++ (x ++ k)) = k := by
  apply BitVec.eq_of_getLsbD_eq
  intro i hi
  simp only [fieldKK, extract, BitVec.getLsbD_extractLsb', BitVec.getLsbD_append]
  rw [if_pos (by omega), if_pos (by omega)]
  simp; omega

theorem fieldY_append (c x y n : Nibble) : fieldY (c ++ (x ++ (y ++ n))) = y := by
  apply BitVec.eq_of_getLsbD_eq
  intro i hi
  simp only [fieldY, nibble, BitVec.getLsbD_extractLsb', BitVec.getLsbD_append]
  rw [if_pos (by show 4 + i < 12; omega), if_pos (by show 4 + i < 8; omega), if_neg (by show ¬ 4 + i < 4; omega)]
  simp [hi]

theorem fieldN_append (c x y n : Nibble) : fieldN (c ++ (x ++ (y ++ n))) = n := by
  apply BitVec.eq_of_getLsbD_eq
  intro i hi
  simp only [fieldN, nibble, BitVec.getLsbD_extractLsb', BitVec.getLsbD_append]
  rw [if_pos (by show 0 + i < 12; omega), if_pos (by show 0 + i < 8; omega), if_pos (by show 0 + i < 4; omega)]
  simp [hi]

/-- The class as a number. -/
theorem toNat_fieldC (w : Word) : (fieldC w).toNat = w.toNat / 4096 := by
  have := w.isLt
  simp only [fieldC, nibble, BitVec.extractLsb'_toNat, Nat.shiftRight_eq_div_pow]
  show w.toNat / 4096 % 16 = _
  omega

/-- The low nibble as a number. -/
theorem toNat_fieldN (w : Word) : (fieldN w).toNat = w.toNat % 16 := by
  simp only [fieldN, nibble, BitVec.extractLsb'_toNat, Nat.shiftRight_eq_div_pow]
  show w.toNat / 1 % 16 = _
  omega

/-- A word is its class in front of its twelve low bits. -/
theorem word_eq_class_append (w : Word) : (fieldC w ++ fieldNNN w : Word) = w := by
  apply BitVec.eq_of_getLsbD_eq
  intro i hi
  simp only [fieldC, fieldNNN, nibble, extract, BitVec.getLsbD_append, BitVec.getLsbD_extractLsb']
  by_cases h : i < 12
  · simp [h]
  · rw [if_neg h]
    have e : 12 + (i - 12) = i := by omega
    simp [e]; omega

end Sys2Proof
end

