-- ==== Sys2Proof/Laws/Display.lean ====
section
/-! SUPPORT. The pixel grid cell by cell: a toggle, a blank grid, one plotted bit. -/

namespace Sys2Proof.Machine

/-- Toggling a cell flips it and leaves every other cell alone (44_display.md rule R141). -/
theorem Grid.pixel_toggle (g : Grid) (px qx : Fin Config.gridW) (py qy : Fin Config.gridH) :
    (g.toggle px py).pixel qx qy = if qx = px ∧ qy = py then !g.pixel px py else g.pixel qx qy := by
  unfold Grid.toggle Grid.pixel
  by_cases hy : qy = py
  · subst hy
    by_cases hx : qx = px
    · subst hx; simp
    · have : px.val ≠ qx.val := fun e => hx (Fin.ext e.symm)
      simp [this, hx]
  · have : py.val ≠ qy.val := fun e => hy (Fin.ext e.symm)
    simp [this, hy]

/-- Every cell of the blank grid is off (44_display.md rule R140). -/
@[simp] theorem Grid.pixel_blank (px : Fin Config.gridW) (py : Fin Config.gridH) : Grid.blank.pixel px py = false := by
  simp [Grid.blank, Grid.pixel]

/-- A plotted bit flips its own cell and no other; outside the grid it flips none. -/
theorem Canvas.pixel_plot (c : Canvas) (px py : Nat) (qx : Fin Config.gridW) (qy : Fin Config.gridH) :
    (c.plot px py).grid.pixel qx qy = (c.grid.pixel qx qy ^^ decide (qx.val = px ∧ qy.val = py)) := by
  unfold Canvas.plot
  split_ifs with h
  · rw [Grid.pixel_toggle]
    by_cases e : qx.val = px ∧ qy.val = py
    · obtain ⟨rfl, rfl⟩ := e
      simp
    · have e' : ¬ (qx = ⟨px, h.1⟩ ∧ qy = ⟨py, h.2⟩) := fun ⟨a, b⟩ => e ⟨congrArg Fin.val a, congrArg Fin.val b⟩
      simp [e, e']
  · have : ¬ (qx.val = px ∧ qy.val = py) := fun ⟨a, b⟩ => h ⟨a ▸ qx.isLt, b ▸ qy.isLt⟩
    simp [this]

/-- A plotted bit sets the flag exactly when its cell is inside the grid and on. -/
theorem Canvas.collision_plot (c : Canvas) (px py : Nat) :
    (c.plot px py).collision = true ↔
      c.collision = true ∨ ∃ (hx : px < Config.gridW) (hy : py < Config.gridH), c.grid.pixel ⟨px, hx⟩ ⟨py, hy⟩ = true := by
  unfold Canvas.plot
  split_ifs with h
  · simp [h.1, h.2]
  · constructor
    · exact .inl
    · rintro (e | ⟨hx, hy, -⟩)
      · exact e
      · exact absurd ⟨hx, hy⟩ h

/-- Plotting the bits of a row byte at the column offsets of a list without repeats flips exactly the cells of that row
under a 1 bit, and sets the flag exactly when one of them was on. -/
theorem Canvas.plotBits_spec (x0 py : Nat) (b : Byte) (ks : List Nat) (hks : ks.Nodup) (c : Canvas) :
    (∀ (qx : Fin Config.gridW) (qy : Fin Config.gridH), (Canvas.plotBits x0 py b ks c).grid.pixel qx qy =
      (c.grid.pixel qx qy ^^ decide (qy.val = py ∧ ∃ k ∈ ks, qx.val = x0 + k ∧ b.getLsbD (7 - k) = true))) ∧
    ((Canvas.plotBits x0 py b ks c).collision = true ↔ c.collision = true ∨
      ∃ (qx : Fin Config.gridW) (qy : Fin Config.gridH), qy.val = py ∧
        (∃ k ∈ ks, qx.val = x0 + k ∧ b.getLsbD (7 - k) = true) ∧ c.grid.pixel qx qy = true) := by
  induction ks generalizing c with
  | nil => simp [Canvas.plotBits]
  | cons k ks ih =>
    obtain ⟨hk, hks⟩ := List.nodup_cons.1 hks
    unfold Canvas.plotBits
    by_cases hb : b.getLsbD (7 - k) = true
    · rw [if_pos hb]
      obtain ⟨ihp, ihc⟩ := ih hks (c.plot (x0 + k) py)
      refine ⟨fun qx qy => ?_, ?_⟩
      · rw [ihp, Canvas.pixel_plot, Bool.xor_assoc]
        congr 1
        by_cases hy : qy.val = py
        · by_cases hx : qx.val = x0 + k
          · have hno : ¬ ∃ j ∈ ks, qx.val = x0 + j ∧ b.getLsbD (7 - j) = true := by
              rintro ⟨j, hj, e, -⟩
              exact hk (by rwa [show k = j by omega])
            have hyes : ∃ j ∈ k :: ks, qx.val = x0 + j ∧ b.getLsbD (7 - j) = true := ⟨k, by simp, hx, hb⟩
            rw [decide_eq_true (show qx.val = x0 + k ∧ qy.val = py from ⟨hx, hy⟩),
              decide_eq_false (fun h => hno h.2), decide_eq_true (show _ ∧ _ from ⟨hy, hyes⟩)]
            rfl
          · simp [hx]
        · simp [hy]
      · rw [ihc, Canvas.collision_plot, or_assoc]
        refine or_congr_right ⟨?_, ?_⟩
        · rintro (⟨hx, hy, e⟩ | ⟨qx, qy, hy, ⟨j, hj, hx, hbj⟩, e⟩)
          · exact ⟨⟨x0 + k, hx⟩, ⟨py, hy⟩, rfl, ⟨k, by simp, rfl, hb⟩, e⟩
          · rw [Canvas.pixel_plot] at e
            have : ¬ (qx.val = x0 + k ∧ qy.val = py) := fun h => hk (by rwa [show k = j by omega])
            exact ⟨qx, qy, hy, ⟨j, List.mem_cons_of_mem _ hj, hx, hbj⟩, by simpa [this] using e⟩
        · rintro ⟨qx, qy, hy, ⟨j, hj, hx, hbj⟩, e⟩
          rcases List.mem_cons.1 hj with rfl | hj
          · left
            subst hy
            exact ⟨hx ▸ qx.isLt, qy.isLt, by simpa [← hx] using e⟩
          · right
            refine ⟨qx, qy, hy, ⟨j, hj, hx, hbj⟩, ?_⟩
            have : ¬ (qx.val = x0 + k ∧ qy.val = py) := fun h => hk (by rwa [show k = j by omega])
            rw [Canvas.pixel_plot]
            simpa [this] using e
    · rw [if_neg hb]
      obtain ⟨ihp, ihc⟩ := ih hks c
      have hex : ∀ q : Nat, (∃ j ∈ k :: ks, q = x0 + j ∧ b.getLsbD (7 - j) = true) ↔
          ∃ j ∈ ks, q = x0 + j ∧ b.getLsbD (7 - j) = true := by
        intro q; simp [hb]
      simp only [hex]
      exact ⟨ihp, ihc⟩

/-- The bit of a row byte over column `qx` of grid row `qy`, the row's left end at column `x0` of grid row `py`: bit
`7 - (qx - x0)` (44_display.md rule R142). -/
def rowBit (x0 py : Nat) (b : Byte) (qx qy : Nat) : Bool :=
  decide (x0 ≤ qx ∧ qx < x0 + 8 ∧ qy = py) && b.getLsbD (7 - (qx - x0))

theorem rowBit_iff (x0 py : Nat) (b : Byte) (qx qy : Nat) :
    (qy = py ∧ ∃ k ∈ [0, 1, 2, 3, 4, 5, 6, 7], qx = x0 + k ∧ b.getLsbD (7 - k) = true) ↔ rowBit x0 py b qx qy = true := by
  have mem8 : ∀ k : Nat, k ∈ [0, 1, 2, 3, 4, 5, 6, 7] ↔ k < 8 := by intro k; simp; omega
  simp only [rowBit, Bool.and_eq_true, decide_eq_true_eq, mem8]
  constructor
  · rintro ⟨rfl, k, hk, rfl, hb⟩
    refine ⟨⟨by omega, by omega, rfl⟩, ?_⟩
    rwa [Nat.add_sub_cancel_left]
  · rintro ⟨⟨h1, h2, rfl⟩, hb⟩
    exact ⟨rfl, qx - x0, by omega, by omega, hb⟩

/-- A plotted row flips exactly the cells under its 1 bits. -/
theorem Canvas.pixel_plotRow (c : Canvas) (x0 py : Nat) (b : Byte) (qx : Fin Config.gridW) (qy : Fin Config.gridH) :
    (c.plotRow x0 py b).grid.pixel qx qy = (c.grid.pixel qx qy ^^ rowBit x0 py b qx.val qy.val) := by
  unfold Canvas.plotRow
  rw [(Canvas.plotBits_spec x0 py b _ (by decide) c).1 qx qy]
  congr 1
  rw [Bool.eq_iff_iff, decide_eq_true_iff]
  exact rowBit_iff _ _ _ _ _

/-- A plotted row sets the flag exactly when one of its 1 bits meets a lit cell. -/
theorem Canvas.collision_plotRow (c : Canvas) (x0 py : Nat) (b : Byte) :
    (c.plotRow x0 py b).collision = true ↔ c.collision = true ∨
      ∃ qx qy, rowBit x0 py b qx.val qy.val = true ∧ c.grid.pixel qx qy = true := by
  unfold Canvas.plotRow
  rw [(Canvas.plotBits_spec x0 py b _ (by decide) c).2]
  refine or_congr_right (exists_congr fun qx => exists_congr fun qy => ?_)
  rw [← rowBit_iff, and_assoc]

end Sys2Proof.Machine
end

