-- ==== Sys2Proof/Laws/Exec.lean ====
section
/-! SUPPORT. What executing an instruction can answer: the inversion of `exec`, and that it always answers a next state. -/

namespace Sys2Proof.Machine

/-- Everything an instruction can answer. A Draw answers the state with some grid and the flag written, or with some grid
and the halt; which grid and when is the row loop's business. -/
theorem exec_cases (i : Instr) (s t : State) : exec i s = .next t →
    match i with
    | .cls => t = s.setGrid Grid.blank
    | .ret =>
      (∃ k : Fin Config.stackDepth, s.sp.val = k.val + 1 ∧
        t = { s with sp := ⟨k.val, Nat.lt_succ_of_lt k.isLt⟩, pc := s.stack[k.val]'k.isLt }) ∨
      (s.sp.val = 0 ∧ t = s.raise .stackUnderflow)
    | .jp addr => t = s.setPc (zext16 addr)
    | .call addr =>
      (∃ h : s.sp.val < Config.stackDepth, t = { s with
        stack := s.stack.set s.sp.val s.pc h, sp := ⟨s.sp.val + 1, Nat.succ_lt_succ h⟩, pc := zext16 addr }) ∨
      (s.sp.val = Config.stackDepth ∧ t = s.raise .stackOverflow)
    | .seImm x imm => t = s.setPc (if s.reg x = imm then s.pc + 2 else s.pc)
    | .sneImm x imm => t = s.setPc (if s.reg x = imm then s.pc else s.pc + 2)
    | .seReg x y wantEqual => t = s.setPc (if (s.reg x = s.reg y ↔ wantEqual = true) then s.pc + 2 else s.pc)
    | .ldImm x imm => t = s.setReg x imm
    | .addImm x imm => t = s.setReg x (s.reg x + imm)
    | .ldI addr => t = s.setIndex (zext16 addr)
    | .drw _ _ _ =>
      (∃ g b, t = (s.setGrid g).setFlag b) ∨ (∃ g, t = (s.setGrid g).raise .outOfBoundsRead) := by
  intro h
  cases i with
  | cls => cases h; rfl
  | ret =>
    simp only [exec] at h
    by_cases h0 : s.sp.val = 0
    · rw [execRet_empty s h0] at h; cases h; exact .inr ⟨h0, rfl⟩
    · have := s.sp.isLt
      have hk : s.sp.val = (⟨s.sp.val - 1, by omega⟩ : Fin Config.stackDepth).val + 1 :=
        (Nat.succ_pred_eq_of_ne_zero h0).symm
      rw [execRet_nonempty s _ hk] at h; cases h; exact .inl ⟨_, hk, rfl⟩
  | jp addr => cases h; rfl
  | call addr =>
    simp only [exec] at h
    by_cases h0 : s.sp.val < Config.stackDepth
    · rw [execCall_below_capacity addr s h0] at h; cases h; exact .inl ⟨h0, rfl⟩
    · have h1 : s.sp.val = Config.stackDepth :=
        Nat.le_antisymm (Nat.le_of_lt_succ s.sp.isLt) (Nat.le_of_not_lt h0)
      rw [execCall_at_capacity addr s h1] at h; cases h; exact .inr ⟨h1, rfl⟩
  | seImm x imm => cases h; show s.skipWhen _ _ = _; rw [State.skipWhen_eq]; simp
  | sneImm x imm => cases h; show s.skipWhen _ _ = _; rw [State.skipWhen_eq]; by_cases e : s.reg x = imm <;> simp [e]
  | seReg x y wantEqual => cases h; show s.skipWhen _ _ = _; rw [State.skipWhen_eq]; cases wantEqual <;> simp
  | ldImm x imm => cases h; rfl
  | addImm x imm => cases h; rfl
  | ldI addr => cases h; rfl
  | drw x y n =>
    simp only [exec, execDrw] at h
    split at h
    · cases h; exact .inl ⟨_, _, rfl⟩
    · cases h; exact .inr ⟨_, rfl⟩

/-- Every instruction answers a next state in every state: none faults, none is refused. -/
theorem exec_answers_next (i : Instr) (s : State) : ∃ t, exec i s = .next t := by
  cases i with
  | cls => exact ⟨_, rfl⟩
  | ret => simp only [exec, execRet]; split <;> exact ⟨_, rfl⟩
  | jp addr => exact ⟨_, rfl⟩
  | call addr => simp only [exec, execCall]; split <;> exact ⟨_, rfl⟩
  | seImm x imm => exact ⟨_, rfl⟩
  | sneImm x imm => exact ⟨_, rfl⟩
  | seReg x y wantEqual => exact ⟨_, rfl⟩
  | ldImm x imm => exact ⟨_, rfl⟩
  | addImm x imm => exact ⟨_, rfl⟩
  | ldI addr => exact ⟨_, rfl⟩
  | drw x y n => simp only [exec, execDrw]; split <;> exact ⟨_, rfl⟩

end Sys2Proof.Machine
end

