-- ==== Sys2Proof/Laws/PerInstr.lean ====
section
/-! SUPPORT. Per-instruction statements about the syntax: the word an instruction encodes to matches the row of
30_encoding.md rule R67 that the instruction stands for. -/

namespace Sys2Proof.Laws.MatchesRow

/-- The mask a decoder tests for the instruction's row of the decode table (rule R67). -/
def mask : Instr → Word
  | .cls => 0xF00F
  | .ret => 0xF00F
  | .jp _ => 0xF000
  | .call _ => 0xF000
  | .seImm _ _ => 0xF000
  | .sneImm _ _ => 0xF000
  | .seReg _ _ _ => 0xF000
  | .ldImm _ _ => 0xF000
  | .addImm _ _ => 0xF000
  | .ldI _ => 0xF000
  | .drw _ _ _ => 0xF000

/-- The value the masked word has in the instruction's row of the decode table (rule R67). -/
def value : Instr → Word
  | .cls => 0x0000
  | .ret => 0x000E
  | .jp _ => 0x1000
  | .call _ => 0x2000
  | .seImm _ _ => 0x3000
  | .sneImm _ _ => 0x4000
  | .seReg _ _ _ => 0x5000
  | .ldImm _ _ => 0x6000
  | .addImm _ _ => 0x7000
  | .ldI _ => 0xA000
  | .drw _ _ _ => 0xD000

/-- The encoding of the instruction, where it has one, lies in its own row of the decode table. -/
def Statement (i : Instr) : Prop := ∀ w, encode i = some w → w &&& mask i = value i

/-- A word whose class nibble stands in front of twelve bits, masked to its class. -/
theorem class_of_append (c : Nibble) (r : Addr) : ((c ++ r : Word) &&& 0xF000) = c ++ (0 : Addr) := by
  have h : (0xF000 : Word) = (0xF#4 ++ (0 : Addr) : Word) := by decide
  rw [h, BitVec.and_append]
  have hc : c &&& 0xF#4 = c := BitVec.and_allOnes
  rw [hc, show r &&& 0 = 0 from BitVec.and_zero]

theorem cls : Statement .cls := by rintro w h; cases h; decide
theorem ret : Statement .ret := by rintro w h; cases h; decide
theorem jp (addr : Addr) : Statement (.jp addr) := by rintro w h; cases h; exact class_of_append _ _
theorem call (addr : Addr) : Statement (.call addr) := by rintro w h; cases h; exact class_of_append _ _
theorem seImm (x : Nibble) (imm : Byte) : Statement (.seImm x imm) := by rintro w h; cases h; exact class_of_append _ _
theorem sneImm (x : Nibble) (imm : Byte) : Statement (.sneImm x imm) := by rintro w h; cases h; exact class_of_append _ _
theorem seReg (x y : Nibble) (wantEqual : Bool) : Statement (.seReg x y wantEqual) := by
  rintro w h
  cases wantEqual
  · cases h
  · cases h; exact class_of_append _ _
theorem ldImm (x : Nibble) (imm : Byte) : Statement (.ldImm x imm) := by rintro w h; cases h; exact class_of_append _ _
theorem addImm (x : Nibble) (imm : Byte) : Statement (.addImm x imm) := by rintro w h; cases h; exact class_of_append _ _
theorem ldI (addr : Addr) : Statement (.ldI addr) := by rintro w h; cases h; exact class_of_append _ _
theorem drw (x y n : Nibble) : Statement (.drw x y n) := by rintro w h; cases h; exact class_of_append _ _

end Sys2Proof.Laws.MatchesRow
end

