-- ==== Sys2Proof/Laws/Step.lean ====
section
/-! SUPPORT. What one tick can be: the inversion of the phases before execute. -/

namespace Sys2Proof.Machine

/-- The phases before execute hand over an instruction exactly when the machine runs, the fetch is permitted, the word is
there and it decodes; and then `pc` is advanced (40_cycle_pipeline.md rule R90). -/
theorem State.front_eq_execute (s t : State) (i : Instr) :
    s.front = .execute i t ↔ s.status = .running ∧ s.fetchPermitted ∧
      (∃ w, s.readWord? s.pc.toNat = some w ∧ decodeWord w = .instr i) ∧ t = s.advance := by
  unfold State.front
  cases hs : s.status with
  | halted r => simp
  | running =>
    by_cases hp : s.fetchPermitted
    · rw [if_pos hp]
      cases hw : s.readWord? s.pc.toNat with
      | none => simp
      | some w =>
        cases hd : decodeWord w with
        | error e => simp [hd]
        | instr j =>
          simp only [hd, Front.execute.injEq]
          constructor
          · rintro ⟨rfl, rfl⟩; exact ⟨trivial, hp, ⟨w, rfl, hd⟩, rfl⟩
          · rintro ⟨-, -, ⟨w', hw', hd'⟩, rfl⟩
            cases hw'; rw [hd] at hd'; cases hd'; exact ⟨rfl, rfl⟩
    · simp [hp]

/-- Everything a tick can come to. -/
theorem step_cases (s : State) :
    (∃ r, s.status = .halted r ∧ step s = .next s) ∨
    (s.status = .running ∧ ¬ s.fetchPermitted ∧ step s = .next (s.raise .endOfProgram)) ∨
    (s.status = .running ∧ s.fetchPermitted ∧ s.readWord? s.pc.toNat = none ∧
      step s = .fault (.fetchOutsideMemory s.pc.toNat)) ∨
    (∃ w e, s.status = .running ∧ s.fetchPermitted ∧ s.readWord? s.pc.toNat = some w ∧ decodeWord w = .error e ∧
      step s = .next (s.raise (.invalidInstruction w))) ∨
    (∃ w i, s.status = .running ∧ s.fetchPermitted ∧ s.readWord? s.pc.toNat = some w ∧ decodeWord w = .instr i ∧
      step s = exec i s.advance) := by
  unfold step State.front
  cases hs : s.status with
  | halted r => exact .inl ⟨r, rfl, rfl⟩
  | running =>
    refine .inr ?_
    by_cases hp : s.fetchPermitted
    · refine .inr ?_
      rw [if_pos hp]
      cases hw : s.readWord? s.pc.toNat with
      | none => exact .inl ⟨rfl, hp, rfl, rfl⟩
      | some w =>
        refine .inr ?_
        cases hd : decodeWord w with
        | error e => exact .inl ⟨w, e, rfl, hp, rfl, hd, by simp only [hd]⟩
        | instr i => exact .inr ⟨w, i, rfl, hp, rfl, hd, by simp only [hd]⟩
    · rw [if_neg hp]; exact .inl ⟨rfl, hp, rfl⟩

/-- A halted machine does not change (rule R96). -/
theorem step_of_halted (s : State) (r : HaltReason) (h : s.status = .halted r) : step s = .next s := by
  unfold step State.front; rw [h]

/-- A running machine executes what it fetches (rule R94). -/
theorem step_of_fetched (s : State) (w : Word) (i : Instr) (hs : s.status = .running) (hp : s.fetchPermitted)
    (hw : s.readWord? s.pc.toNat = some w) (hd : decodeWord w = .instr i) : step s = exec i s.advance := by
  unfold step; rw [(s.front_eq_execute s.advance i).2 ⟨hs, hp, ⟨w, hw, hd⟩, rfl⟩]

/-- No tick is no change. -/
theorem run_zero (s : State) : Host.Core.run core 0 s = .next s := rfl

/-- A run of any machine whose first step answers a state goes on from it. -/
theorem coreRun_succ_of_next (M : Host.Core) (k : Nat) (s t : M.State) (h : M.step s = .next t) :
    M.run (k + 1) s = M.run k t := by
  simp only [Host.Core.run, h]

/-- A run of any machine that answers a state has a first step that answers one. -/
theorem coreRun_succ_eq_next (M : Host.Core) (k : Nat) (s t : M.State) (h : M.run (k + 1) s = .next t) :
    ∃ u, M.step s = .next u ∧ M.run k u = .next t := by
  simp only [Host.Core.run] at h
  cases hs : M.step s with
  | next u => rw [hs] at h; exact ⟨u, rfl, h⟩
  | fault r => rw [hs] at h; cases h
  | refused r => rw [hs] at h; cases h

/-- A run whose first tick answers `t` goes on from `t`. -/
theorem run_succ_of_next (k : Nat) (s t : State) (h : step s = .next t) :
    Host.Core.run core (k + 1) s = Host.Core.run core k t :=
  coreRun_succ_of_next core k s t h

/-- A run of `k + 1` ticks that answers a state has a first tick that answers one. -/
theorem run_succ_eq_next (k : Nat) (s t : State) (h : Host.Core.run core (k + 1) s = .next t) :
    ∃ u, step s = .next u ∧ Host.Core.run core k u = .next t :=
  coreRun_succ_eq_next core k s t h

end Sys2Proof.Machine
end

