-- ==== Sys2Proof/Tests/Slice0.lean ====
section
/-! SUPPORT. The model's own tests. Every expected value is taken from spec/95_test_vectors.md (the row's id is named) or
worked out by hand from a rule. -/

namespace Sys2Proof.Tests

open Sys2Proof.Machine

/-! ### Helpers: small states, and one field of an outcome -/

/-- A machine about to run the word `w` at 0x200, alone in its image, everything else as after reset. -/
def at200 (w : Word) : State := State.reset.withWordAtPc w

/-- One field of the next state, where there is one. -/
def after {α : Type} (o : Host.Outcome State Fault Refusal) (f : State → α) : Option α :=
  match o with
  | .next t => some (f t)
  | .fault _ => none
  | .refused _ => none

/-- `s` with register `i` holding `v`. -/
def withReg (s : State) (i : Nibble) (v : Byte) : State := s.setReg i v

/-- `s` with sprite bytes in memory at `I`. -/
def withSprite (s : State) (index : Word) (bytes : List Byte) : State :=
  { s with index := index, mem := s.mem.putBytes index.toNat bytes }

/-- `s` with one more cell lit. -/
def withLit (s : State) (px : Fin 64) (py : Fin 32) : State := s.setGrid (s.grid.toggle px py)

/-! ### Well-formedness: an ill-formed term for each check, refused -/

theorem test_wellFormed_refuses_unencodable : Instr.wellFormed (.seReg 0 1 false) = false := by decide
theorem test_wellFormed_accepts_encodable : Instr.wellFormed (.seReg 0 1 true) = true := by decide
theorem test_loadBaseEven_refuses_odd : loadBaseEven 0x201 = false := by decide
theorem test_imageFits_refuses_long : imageFits 0xFFE [0x12, 0x03, 0x00] = false := by decide
theorem test_imageFits_accepts_to_the_end : imageFits 0xFFE [0x12, 0x03] = true := by decide
theorem test_load_refuses_odd_base : (match State.load [] 0x201 with | .refused r => some r | _ => none) = some (.oddLoadBase 0x201) := by decide
theorem test_load_refuses_long_image :
    (match State.load [0, 0, 0] 0xFFE with | .refused r => some r | _ => none) = some (.imageDoesNotFit 0xFFE 3) := by decide

/-! ### The extractor (vectors E1 to E3, T1) -/

theorem test_extract_full : extract 0x1ABC 0 16 (by decide) = 0x1ABC#16 := by decide
theorem test_extract_corrected_E3 : extract 0x00F5 4 8 (by decide) = 0x0#4 ∧ extract 0x00F5 8 12 (by decide) = 0xF#4 := by decide
theorem test_extract_inner : extract 0x1ABC 2 6 (by decide) = 0x6#4 ∧ extract 0x8001 15 16 (by decide) = 1#1 := by decide
theorem test_nibble_E2 : (nibble 0xEEDA 0, nibble 0xEEDA 1, nibble 0xEEDA 2, nibble 0xEEDA 3) = (0xE, 0xE, 0xD, 0xA) := by decide

/-! ### The decoder (vectors E4, E5, T2): a word of every row, written out from the spec's encoding -/

theorem test_decode_cls : decodeWord 0b0000000011100000 = .instr .cls := by decide
theorem test_decode_cls_ignored_bits : decodeWord 0x0120 = .instr .cls ∧ decodeWord 0x0000 = .instr .cls := by decide
theorem test_decode_ret : decodeWord 0b0000000011101110 = .instr .ret := by decide
theorem test_decode_ret_ignored_bits : decodeWord 0x0ABE = .instr .ret := by decide
theorem test_decode_jp : decodeWord 0b0001101010111100 = .instr (.jp 0xABC) := by decide
theorem test_decode_call : decodeWord 0b0010001000000000 = .instr (.call 0x200) := by decide
theorem test_decode_seImm : decodeWord 0b0011000000000101 = .instr (.seImm 0 0x05) := by decide
theorem test_decode_sneImm : decodeWord 0b0100101001011100 = .instr (.sneImm 10 0x5C) := by decide
theorem test_decode_seReg : decodeWord 0b0101000000010000 = .instr (.seReg 0 1 true) := by decide
theorem test_decode_seReg_ignored_bits : decodeWord 0x5127 = .instr (.seReg 1 2 true) := by decide
theorem test_decode_ldImm : decodeWord 0b0110101000000111 = .instr (.ldImm 10 0x07) := by decide
theorem test_decode_addImm : decodeWord 0b0111001100000010 = .instr (.addImm 3 0x02) := by decide
theorem test_decode_ldI : decodeWord 0b1010001000010010 = .instr (.ldI 0x212) := by decide
theorem test_decode_drw : decodeWord 0b1101000000010011 = .instr (.drw 0 1 3) := by decide
theorem test_decode_errors_class0 :
    decodeWord 0x00E1 = .error (.unrecognizedOpcode 0x00E1) ∧ decodeWord 0x00EF = .error (.unrecognizedOpcode 0x00EF) := by decide
theorem test_decode_errors_classes :
    ([0x8010, 0x9010, 0xB200, 0xC0FF, 0xE09E, 0xF00A, 0xFFFF].map decodeWord) =
      [0x8010, 0x9010, 0xB200, 0xC0FF, 0xE09E, 0xF00A, 0xFFFF].map (fun w => .error (.unrecognizedOpcode w)) := by decide
theorem test_decodeBytes_big_endian : decodeBytes [0x1A, 0xBC, 0x60] = (.instr (.jp 0xABC), [0x60]) := by decide
theorem test_decodeBytes_truncated : decodeBytes [0x1A] = (.error .truncated, [0x1A]) := by decide
theorem test_decodeTableWord : decodeTableWord 16 0x6A07 = some (.ldImm 10 7) ∧ decodeTableWord 16 0x8010 = none := by decide
theorem test_encode_canonical : encode .cls = some 0x00E0 ∧ encode .ret = some 0x00EE ∧ encode (.seReg 15 15 true) = some 0x5FF0 := by decide
theorem test_encode_drw : encode (.drw 0 1 3) = some 0xD013 ∧ encode (.jp 0xABC) = some 0x1ABC := by decide
theorem test_encode_none : encode (.seReg 0 1 false) = none := by decide

/-! ### One tick of every instruction -/

-- G16: 0x0000 clears, x[15] keeps its value.
theorem test_cls : after (step (withLit (withReg (at200 0x0000) 15 1) 8 4)) (fun t => (t.grid, t.reg 15, t.pc)) =
    some (Grid.blank, 1, 0x202) := by decide
-- F7: the most recent entry is popped.
theorem test_ret : after (step { at200 0x00EE with sp := 2, stack := (State.reset.stack.set 0 0x0208).set 1 0x0310 })
    (fun t => (t.pc, t.sp)) = some (0x310, 1) := by decide
-- F6.
theorem test_ret_underflow : after (step (at200 0x00EE)) (fun t => (t.status, t.sp, t.pc)) =
    some (.halted .stackUnderflow, 0, 0x202) := by decide
-- F1 and F9: an odd target is taken as it stands.
theorem test_jp : after (step (at200 0x1ABC)) (fun t => (t.pc, t.sp, t.status)) = some (0xABC, 0, .running) := by decide
theorem test_jp_odd : after (step (at200 0x1203)) (fun t => t.pc) = some 0x203 := by decide
-- F4: the sixteenth nested call succeeds.
theorem test_call : after (step { at200 0x2400 with sp := 15 }) (fun t => (t.pc, t.sp, t.stack[15])) =
    some (0x400, 16, 0x202) := by decide
-- F5: the seventeenth faults, pc not redirected.
theorem test_call_overflow : after (step { at200 0x2400 with sp := 16 }) (fun t => (t.status, t.pc, t.sp, t.stack)) =
    some (.halted .stackOverflow, 0x202, 16, State.reset.stack) := by decide
-- S1, S2.
theorem test_seImm_skips : after (step (withReg (at200 0x3005) 0 5)) (fun t => t.pc) = some 0x204 := by decide
theorem test_seImm_no_skip : after (step (withReg (at200 0x3005) 0 4)) (fun t => t.pc) = some 0x202 := by decide
-- S6, S7.
theorem test_sneImm_skips : after (step (withReg (at200 0x4F00) 15 1)) (fun t => t.pc) = some 0x204 := by decide
theorem test_sneImm_no_skip : after (step (at200 0x4F00)) (fun t => t.pc) = some 0x202 := by decide
-- S11 (nibble 3 ignored), S9.
theorem test_seReg_skips : after (step (withReg (withReg (at200 0x501B) 0 7) 1 7)) (fun t => t.pc) = some 0x204 := by decide
theorem test_seReg_no_skip : after (step (withReg (withReg (at200 0x5010) 0 7) 1 4)) (fun t => t.pc) = some 0x202 := by decide
-- A1, A2.
theorem test_ldImm : after (step (withReg (at200 0x6A07) 10 0x33)) (fun t => (t.reg 10, t.pc)) = some (7, 0x202) := by decide
theorem test_ldImm_flag : after (step (withReg (at200 0x6F80) 15 1)) (fun t => t.reg 15) = some 0x80 := by decide
-- A3 (example E7), A10.
theorem test_addImm_wraps : after (step (withReg (withReg (at200 0x7302) 3 0xFF) 15 9)) (fun t => (t.reg 3, t.reg 15)) =
    some (1, 9) := by decide
theorem test_addImm_flag : after (step (withReg (at200 0x7F02) 15 0xFF)) (fun t => t.reg 15) = some 1 := by decide
-- A11, A13.
theorem test_ldI : after (step (at200 0xA212)) (fun t => t.index) = some 0x212 := by decide
theorem test_ldI_top : after (step (at200 0xAFFF)) (fun t => (t.index, t.status)) = some (0xFFF, .running) := by decide

/-! ### Draw (T6) -/

-- Worked by hand from rule R141 (G2, G4 and G6 in one): x0 = 0xFC mod 64 = 60, y0 = 0xFF mod 32 = 31; the lit cell
-- (60,31) goes off and sets the flag, 61 to 63 come on, columns 64 to 67 and row 32 are clipped, not wrapped.
theorem test_drw_collision_and_clipping :
    after (step (withLit (withReg (withReg (withSprite (at200 0xD012) 0x300 [0xFF, 0xFF]) 0 0xFC) 1 0xFF) 60 31))
      (fun t => ([59, 60, 61, 62, 63, 0, 3].map fun px => t.grid.pixel px 31, t.grid.pixel 60 0, t.reg 15, t.index)) =
    some ([false, false, true, true, true, false, false], false, 1, 0x300) := by decide
-- G11: the row in memory stays drawn, the flag register is not written, pc is advanced.
theorem test_drw_out_of_bounds :
    after (step (withReg (withSprite (at200 0xD232) 0xFFF [0xA0]) 15 7))
      (fun t => (t.status, t.reg 15, t.pc, [0, 1, 2, 3].map fun px => t.grid.pixel px 0)) =
    some (.halted .outOfBoundsRead, 7, 0x202, [true, false, true, false]) := by decide
/-! ### The cycle driver (T7) -/

-- H1: the empty image.
theorem test_empty_image : after (step State.reset) (fun t => (t.status, t.pc)) = some (.halted .endOfProgram, 0x200) := by decide
-- H2: the last byte of an odd image is never fetched.
theorem test_odd_image : after (step { at200 0x6001 with pc := 0x202, imgLen := 3 }) (fun t => (t.status, t.pc)) =
    some (.halted .endOfProgram, 0x202) := by decide
-- H3 and P7: the word is carried, pc is not advanced.
theorem test_invalid_instruction : after (step (at200 0x8010)) (fun t => (t.status, t.pc, t.statusCode, t.haltWord)) =
    some (.halted (.invalidInstruction 0x8010), 0x200, 2, some 0x8010) := by decide
-- H4: below the load base.
theorem test_below_base : after (step { at200 0x6001 with pc := 0x100 }) (fun t => (t.status, t.pc)) =
    some (.halted .endOfProgram, 0x100) := by decide
-- H6: a halted machine does not change.
theorem test_halted_tick : after (step ((at200 0x6001).raise .stackOverflow)) (fun t => (t.status, t.reg 0, t.pc)) =
    some (.halted .stackOverflow, 0, 0x200) := by decide
-- The fault of log entry 16: an extent past the end of memory, which no load makes.
theorem test_fetch_outside_memory :
    (match step { State.reset with pc := 0x1000, imgLen := 0x2000 } with | .fault r => some r | _ => none) =
    some (.fetchOutsideMemory 0x1000) := by decide
-- P5: a load up to the last byte of memory.
theorem test_load : after (State.load [0xAF, 0xFE] 0xFFE) (fun t => (t.pc, t.readByte? 0xFFF, t.readByte? 0x1000, t.imgLen)) =
    some (0xFFE, some 0xFE, none, 2) := by decide

/-! ### Witnesses: for each statement with hypotheses, a state and operands that meet all of them, each clause of it -/

theorem test_witness_ExtractIsTheMsbFirstSlice : (0 < 16 ∧ 16 ≤ 16) ∧ (15 < 16 ∧ 16 ≤ 16) := by decide

theorem test_witness_NibbleIsTheHexDigitAtItsPosition :
    4 * (3 : Fin 4).val < 4 * (3 : Fin 4).val + 4 ∧ 4 * (3 : Fin 4).val + 4 ≤ 16 := by decide

/-- A word of every row of the decode table, and one of no row; also of each instruction's own encoding clause. -/
theorem test_witness_DecodeFollowsTheTable :
    (0x0FF0 : Word) &&& 0xF00F = 0x0000 ∧ (0x0FFE : Word) &&& 0xF00F = 0x000E ∧ (0x1FFF : Word) &&& 0xF000 = 0x1000 ∧
    (0x2FFF : Word) &&& 0xF000 = 0x2000 ∧ (0x3FFF : Word) &&& 0xF000 = 0x3000 ∧ (0x4FFF : Word) &&& 0xF000 = 0x4000 ∧
    (0x5FFF : Word) &&& 0xF000 = 0x5000 ∧ (0x6FFF : Word) &&& 0xF000 = 0x6000 ∧ (0x7FFF : Word) &&& 0xF000 = 0x7000 ∧
    (0xAFFF : Word) &&& 0xF000 = 0xA000 ∧ (0xDFFF : Word) &&& 0xF000 = 0xD000 ∧
    (decodeRows.all fun row => decide ((0x0FFF : Word) &&& row.1 ≠ row.2)) = true := by decide

theorem test_witness_DecodeTableRowsDoNotOverlap :
    (0x0FFE : Word) &&& (decodeRows.get ⟨1, by decide⟩).1 = (decodeRows.get ⟨1, by decide⟩).2 := by decide

theorem test_witness_EncodedInstructionDecodesBack :
    Instr.wellFormed (.seReg 15 15 true) = true ∧ decodeWord 0x5FFF = .instr (.seReg 15 15 true) := by decide

theorem test_witness_WordReencodesButForIgnoredBits : decodeWord 0x0FF0 = .instr .cls := by decide

/-- A running machine with the bytes `hi`, `lo` at its `pc`, inside the loaded extent. -/
abbrev Fetches (s : State) (hi lo : Byte) : Prop :=
  s.status = .running ∧ s.loadBase ≤ s.pc.toNat ∧ s.pc.toNat + 2 ≤ s.loadBase + s.imgLen ∧
    s.readByte? s.pc.toNat = some hi ∧ s.readByte? (s.pc.toNat + 1) = some lo

theorem test_witness_StepRunsTheDecodedInstruction :
    Fetches (at200 0x1ABC) 0x1A 0xBC ∧ decodeWord ((0x1A : Byte) ++ (0xBC : Byte)) = .instr (.jp 0xABC) := by decide

-- The same at an odd `pc`.
theorem test_witness_StepRunsTheDecodedInstruction_odd :
    Fetches (State.withWordAtPc (State.reset.setPc 0x203) 0x602A) 0x60 0x2A := by decide

theorem test_witness_UndecodableWordHalts : Fetches (at200 0x8010) 0x80 0x10 ∧
    decodeWord ((0x80 : Byte) ++ (0x10 : Byte)) = .error (.unrecognizedOpcode 0x8010) := by decide

-- Half a word past the end, and just past the end.
theorem test_witness_FetchPastTheEndHalts :
    (∃ s : State, s.status = .running ∧ s.loadBase + s.imgLen + 1 = s.pc.toNat + 2) ∧
    (State.reset.status = .running ∧ State.reset.loadBase + State.reset.imgLen < State.reset.pc.toNat + 2) :=
  ⟨⟨(at200 0x6001).setPc 0x201, by decide⟩, by decide⟩

theorem test_witness_FetchBelowTheBaseHalts :
    ((at200 0x6001).setPc 0x1FF).status = .running ∧ ((at200 0x6001).setPc 0x1FF).pc.toNat < ((at200 0x6001).setPc 0x1FF).loadBase := by
  decide

-- Boundary: the second byte of the word is the first address with no memory.
theorem test_witness_FetchWithNoMemoryFaults :
    { State.reset with pc := 0xFFF, imgLen := 0x2000 }.status = .running ∧
    { State.reset with pc := 0xFFF, imgLen := 0x2000 }.fetchPermitted ∧
    Config.memSize < { State.reset with pc := 0xFFF, imgLen := 0x2000 }.pc.toNat + 2 := by decide

theorem test_witness_HaltedIsTerminal : (State.reset.raise .stackOverflow).status = .halted .stackOverflow := by decide

/-- A machine at 0x200 that executes the word `w` as the instruction `i` and goes on running. -/
abbrev RunsOn (s : State) (w : Word) (i : Instr) : Prop :=
  s.status = .running ∧ s.fetchPermitted ∧ s.readWord? s.pc.toNat = some w ∧ decodeWord w = .instr i ∧
    after (step s) (fun t => t.status) = some .running

theorem test_witness_PcAtTheEndOfTheCycle :
    RunsOn (at200 0x00E0) 0x00E0 .cls ∧ RunsOn (at200 0x1FFF) 0x1FFF (.jp 0xFFF) ∧
    RunsOn (at200 0x2FFF) 0x2FFF (.call 0xFFF) ∧ RunsOn (at200 0x3F00) 0x3F00 (.seImm 15 0) ∧
    RunsOn (at200 0x4F00) 0x4F00 (.sneImm 15 0) := by decide

theorem test_witness_PcAtTheEndOfTheCycle_others :
    RunsOn (at200 0x5FFF) 0x5FFF (.seReg 15 15 true) ∧ RunsOn (at200 0x6A07) 0x6A07 (.ldImm 10 7) ∧ RunsOn (at200 0x7FFF) 0x7FFF (.addImm 15 0xFF) ∧
    RunsOn (at200 0xAFFF) 0xAFFF (.ldI 0xFFF) ∧ RunsOn (at200 0xDFF0) 0xDFF0 (.drw 15 15 0) ∧
    RunsOn { at200 0x00EE with sp := 1 } 0x00EE .ret := by decide

/-- A tick of a running machine halts it for the reason `r`. -/
abbrev HaltsFor (s : State) (r : HaltReason) : Prop :=
  s.status = .running ∧ after (step s) (fun t => t.status) = some (.halted r)

theorem test_witness_PcInTheHaltedState :
    HaltsFor State.reset .endOfProgram ∧ HaltsFor (at200 0xFFFF) (.invalidInstruction 0xFFFF) ∧
    HaltsFor { at200 0x2400 with sp := 16 } .stackOverflow ∧ HaltsFor (at200 0x00EE) .stackUnderflow ∧
    HaltsFor { at200 0xD002 with index := 0xFFF } .outOfBoundsRead := by decide

theorem test_witness_OnlyTheirOwnFaultsHaltInstructions :
    after (exec (.call 0x400) { State.reset with sp := 16 }) (fun t => t.status) = some (.halted .stackOverflow) ∧
    after (exec .ret State.reset) (fun t => t.status) = some (.halted .stackUnderflow) ∧
    after (exec (.drw 0 0 2) { State.reset with index := 0xFFF }) (fun t => t.status) = some (.halted .outOfBoundsRead) := by
  decide

theorem test_witness_CallPushesTheReturnAddressOrOverflows :
    State.reset.sp.val = (0 : Fin 16).val ∧ { State.reset with sp := 15 }.sp.val = (15 : Fin 16).val ∧
    { State.reset with sp := 16 }.sp.val = Config.stackDepth := by decide

theorem test_witness_ReturnPopsIntoTheProgramCounterOrUnderflows :
    { State.reset with sp := 1 }.sp.val = (0 : Fin 16).val + 1 ∧ { State.reset with sp := 16 }.sp.val = (15 : Fin 16).val + 1 ∧
    State.reset.sp.val = 0 := by decide

-- Height 0, and the last byte of memory.
theorem test_witness_DrawXorsTheSpriteIntoTheGrid :
    ((0 : Nibble).toNat = 0 ∨ State.reset.index.toNat + (0 : Nibble).toNat ≤ Config.memSize) ∧
    ({ State.reset with index := 0xFFF }.index.toNat + (1 : Nibble).toNat ≤ Config.memSize) := by decide

theorem test_witness_DrawPastMemoryKeepsTheRowsBefore :
    0 < (2 : Nibble).toNat ∧ Config.memSize < { State.reset with index := 0xFFF }.index.toNat + (2 : Nibble).toNat := by decide

/-- A small drawing: one row 0xF0 at column 60 of row 0. -/
def drawing : State := withReg (withSprite State.reset 0x300 [0xF0]) 0 60

-- The cells just left of the sprite, just below it, and just right of a sprite at column 0.
theorem test_witness_DrawTouchesOnlyItsRectangle :
    (∃ t, exec (.drw 0 1 1) drawing = .next t) ∧
    ((59 : Fin 64).val < (drawing.reg 0).toNat % 64) ∧ ((drawing.reg 1).toNat % 32 + (1 : Nibble).toNat ≤ (1 : Fin 32).val) ∧
    ((drawing.reg 1).toNat % 64 + 8 ≤ (8 : Fin 64).val) :=
  ⟨⟨_, rfl⟩, by decide, by decide, by decide⟩

theorem test_witness_DrawTwiceRestoresTheGrid :
    ∃ t, exec (.drw 0 1 1) drawing = .next t ∧ t.status = drawing.status ∧ drawing.status = .running ∧
      (t.reg 0).toNat % 64 = (drawing.reg 0).toNat % 64 ∧ (t.reg 1).toNat % 32 = (drawing.reg 1).toNat % 32 :=
  ⟨_, rfl, by decide, by decide, by decide, by decide⟩

theorem test_witness_OnlyItsOwnersWriteAPart :
    after (exec (.ldImm 3 7) State.reset) (fun t => decide (t.reg 3 ≠ State.reset.reg 3)) = some true ∧
    after (exec (.addImm 3 7) State.reset) (fun t => decide (t.reg 3 ≠ State.reset.reg 3)) = some true ∧
    after (exec (.drw 0 1 0) (withReg State.reset 15 7)) (fun t => decide (t.reg 15 ≠ 7)) = some true ∧
    after (exec (.ldI 7) State.reset) (fun t => decide (t.index ≠ State.reset.index)) = some true ∧
    after (exec (.call 7) State.reset) (fun t => decide (t.sp ≠ State.reset.sp)) = some true ∧
    after (exec .ret { State.reset with sp := 1 }) (fun t => decide (t.sp ≠ 1)) = some true ∧
    after (exec .cls (withLit State.reset 8 4)) (fun t => t.grid.pixel 8 4) = some false ∧
    after (exec (.drw 0 1 1) drawing) (fun t => decide (t.grid.pixel 60 0 ≠ drawing.grid.pixel 60 0)) = some true := by decide

theorem test_witness_MemoryIsConstantAfterLoad : ∃ t, Host.Core.run core 2 (at200 0x6001) = .next t := ⟨_, rfl⟩

theorem test_witness_EveryTickKeepsTheInvariant : (at200 0x2400).Inv ∧ ∃ t, step (at200 0x2400) = .next t :=
  ⟨⟨by decide, by decide, by decide, by decide, by decide, by decide⟩, _, rfl⟩

theorem test_witness_EveryTickCompletes : (at200 0xD00F).Inv :=
  ⟨by decide, by decide, by decide, by decide, by decide, by decide⟩

theorem test_witness_EveryRunFromALoadMeetsTheInvariant :
    ∃ s t, State.load [0x22, 0x00] 0x200 = .next s ∧ Host.Core.run core 1 s = .next t := ⟨_, _, rfl, rfl⟩

theorem test_witness_EvenTargetsKeepTheProgramCounterEven :
    (at200 0x1ABC).AllEven ∧ (∃ t, step (at200 0x1ABC) = .next t) ∧
    (∀ w addr, (at200 0x1ABC).readWord? (at200 0x1ABC).pc.toNat = some w →
      decodeWord w = .instr (.jp addr) ∨ decodeWord w = .instr (.call addr) → addr.toNat % 2 = 0) := by
  refine ⟨⟨by decide, by decide, by decide⟩, ⟨_, rfl⟩, ?_⟩
  intro w addr hw hd
  have h : (at200 0x1ABC).readWord? (at200 0x1ABC).pc.toNat = some 0x1ABC := by decide
  cases h.symm.trans hw
  have hj : decodeWord 0x1ABC = .instr (.jp 0xABC) := by decide
  rw [hj] at hd
  rcases hd with hd | hd
  · cases hd; decide
  · cases hd

theorem test_witness_DeadStackSlotsAreNeverObserved :
    ∃ s t : State, s ≠ t ∧ s.SameLive t :=
  ⟨at200 0x00EE, { at200 0x00EE with stack := State.reset.stack.set 0 0x0208 }, by decide,
    rfl, rfl, rfl, rfl, rfl, rfl, rfl, rfl, rfl, fun k h => absurd h (Nat.not_lt_zero _)⟩

/-- A call at 0x200 of a return at 0x202. -/
def callThenReturn : State := { at200 0x2202 with mem := (at200 0x2202).mem.putBytes 0x202 [0x00, 0xEE], imgLen := 4 }

theorem test_witness_CallThenReturnComesBack :
    callThenReturn.status = .running ∧ callThenReturn.fetchPermitted ∧
    callThenReturn.readWord? callThenReturn.pc.toNat = some 0x2202 ∧ decodeWord 0x2202 = .instr (.call 0x202) ∧
    callThenReturn.sp.val = (0 : Fin 16).val ∧ callThenReturn.loadBase ≤ (0x202 : Addr).toNat ∧
    (0x202 : Addr).toNat + 2 ≤ callThenReturn.loadBase + callThenReturn.imgLen ∧
    callThenReturn.readWord? (0x202 : Addr).toNat = some 0x00EE ∧ decodeWord 0x00EE = .instr .ret := by decide

theorem test_witness_LoadCopiesTheImage : 0xFFE % 2 = 0 ∧ 0xFFE + [(0xAF : Byte), 0xFE].length ≤ Config.memSize := by decide

theorem test_witness_LoadResetsTheMachine : ∃ t, State.load [0x12, 0x00] 0xFFE = .next t := ⟨_, rfl⟩

theorem test_witness_LoadRefusesWhatBreaksItsPreconditions :
    0x201 % 2 = 1 ∧ 0xFFE % 2 = 0 ∧ Config.memSize < 0xFFE + [(0 : Byte), 0, 0].length := by decide

theorem test_witness_FirstTickRunsTheInstructionAtTheBase :
    (∃ s, State.load [0x12, 0x00] 0x200 = .next s) ∧ decodeWord ((0x12 : Byte) ++ (0x00 : Byte)) = .instr (.jp 0x200) :=
  ⟨⟨_, rfl⟩, by decide⟩

theorem test_witness_StatusPortReportsTheReason :
    State.reset.status = .running ∧ (State.reset.raise (.invalidInstruction 0x8010)).status = .halted (.invalidInstruction 0x8010) ∧
    State.reset.statusCode ≠ 2 := by decide

end Sys2Proof.Tests
end

section
/-! PROOFS. The statements of 10_state.md: what one instruction and one tick can do to each part of the state, the
invariant of every run, the parity of `pc`, and that nothing reads a dead stack slot. -/

namespace Sys2Proof.Machine

/-! ### What a word decodes to -/

/-- No word decodes to `CompareRegisters` with `wantEqual = false` (30_encoding.md rule R73). -/
theorem wellFormed_of_decodeWord {w : Word} {i : Instr} (h : decodeWord w = .instr i) : i.wellFormed = true := by
  unfold decodeWord at h
  split at h
  case h_1 => split at h <;> cases h <;> rfl
  all_goals cases h <;> rfl

/-! ### The outcome of a tick, branch by branch -/

/-- A fetch outside the loaded extent halts (rule R91). -/
theorem step_of_not_permitted (s : State) (hs : s.status = .running) (hp : ¬ s.fetchPermitted) :
    step s = .next (s.raise .endOfProgram) := by
  unfold step State.front
  rw [hs]
  simp only [if_neg hp]

/-- A permitted fetch with no memory under it is the model's fault (log entry 16). -/
theorem step_of_no_memory (s : State) (hs : s.status = .running) (hp : s.fetchPermitted)
    (hw : s.readWord? s.pc.toNat = none) : step s = .fault (.fetchOutsideMemory s.pc.toNat) := by
  unfold step State.front
  rw [hs]
  simp only [if_pos hp, hw]

/-- A fetched word that does not decode halts (rule R93). -/
theorem step_of_undecodable (s : State) (w : Word) (e : DecodeError) (hs : s.status = .running)
    (hp : s.fetchPermitted) (hw : s.readWord? s.pc.toNat = some w) (hd : decodeWord w = .error e) :
    step s = .next (s.raise (.invalidInstruction w)) := by
  unfold step State.front
  rw [hs]
  simp only [if_pos hp, hw, hd]

/-- A tick that answers a state leaves it alone but for the status, or executes the instruction it fetched. -/
theorem step_next_cases {s t : State} (h : step s = .next t) :
    t = s ∨ (∃ r, t = s.raise r) ∨
      ∃ w i, s.fetchPermitted ∧ s.readWord? s.pc.toNat = some w ∧ decodeWord w = .instr i ∧
        exec i s.advance = .next t := by
  rcases step_cases s with ⟨r, -, e⟩ | ⟨-, -, e⟩ | ⟨-, -, -, e⟩ | ⟨w, err, -, -, -, -, e⟩ | ⟨w, i, -, hp, hw, hd, e⟩ <;>
    rw [e] at h
  · cases h; exact .inl rfl
  · cases h; exact .inr (.inl ⟨_, rfl⟩)
  · cases h
  · cases h; exact .inr (.inl ⟨_, rfl⟩)
  · exact .inr (.inr ⟨w, i, hp, hw, hd, h⟩)

/-- What every tick keeps, every run keeps. -/
theorem run_keeps {P : State → Prop} (hstep : ∀ s t, P s → step s = .next t → P t) :
    ∀ (k : Nat) (s t : State), P s → Host.Core.run core k s = .next t → P t := by
  intro k
  induction k with
  | zero => intro s t hs h; rw [run_zero] at h; cases h; exact hs
  | succ k ih =>
    intro s t hs h
    obtain ⟨u, hu, ht⟩ := run_succ_eq_next k s t h
    exact ih u t (hstep s u hs hu) ht

/-! ### What an instruction can do to each part -/

/-- The memory buffer and the loaded extent of `t` are those of `s`. -/
def State.SameImage (s t : State) : Prop := t.mem = s.mem ∧ t.loadBase = s.loadBase ∧ t.imgLen = s.imgLen

theorem State.SameImage.readByte?_eq {s t : State} (h : s.SameImage t) (a : Nat) : t.readByte? a = s.readByte? a := by
  obtain ⟨hmem, -, -⟩ := h
  exact State.readByte?_congr t s hmem a

/-- No instruction writes memory or the loaded extent (rules R22, R27). -/
theorem exec_sameImage {i : Instr} {s t : State} (h : exec i s = .next t) : s.SameImage t := by
  have hc := exec_cases i s t h
  cases i with
  | ret => obtain ⟨k, -, rfl⟩ | ⟨-, rfl⟩ := hc <;> exact ⟨rfl, rfl, rfl⟩
  | call addr => obtain ⟨hlt, rfl⟩ | ⟨-, rfl⟩ := hc <;> exact ⟨rfl, rfl, rfl⟩
  | drw x y n => obtain ⟨g, b, rfl⟩ | ⟨g, rfl⟩ := hc <;> exact ⟨rfl, rfl, rfl⟩
  | _ => obtain rfl := hc; exact ⟨rfl, rfl, rfl⟩

/-- No tick writes memory or the loaded extent (rule R54). -/
theorem step_sameImage {s t : State} (h : step s = .next t) : s.SameImage t := by
  obtain rfl | ⟨r, rfl⟩ | ⟨w, i, -, -, -, he⟩ := step_next_cases h
  · exact ⟨rfl, rfl, rfl⟩
  · exact ⟨rfl, rfl, rfl⟩
  · have himg : s.advance.SameImage t := exec_sameImage he
    exact himg

/-- Only SetIndex writes `I`, with its zero-extended address (rule R17). -/
theorem exec_index {i : Instr} {s t : State} (h : exec i s = .next t) :
    t.index = s.index ∨ ∃ addr, i = .ldI addr ∧ t.index = zext16 addr := by
  have hc := exec_cases i s t h
  cases i with
  | ldI addr => obtain rfl := hc; exact .inr ⟨addr, rfl, rfl⟩
  | ret => obtain ⟨k, -, rfl⟩ | ⟨-, rfl⟩ := hc <;> exact .inl rfl
  | call addr => obtain ⟨hlt, rfl⟩ | ⟨-, rfl⟩ := hc <;> exact .inl rfl
  | drw x y n => obtain ⟨g, b, rfl⟩ | ⟨g, rfl⟩ := hc <;> exact .inl rfl
  | _ => obtain rfl := hc; exact .inl rfl

/-- `pc` and the stack together: only CallSubroutine pushes and only Return pops, and `pc` stays, skips, or goes to the
operand of a Jump or a CallSubroutine or to the popped entry (rules R14, R18). -/
theorem exec_control {i : Instr} {s t : State} (h : exec i s = .next t) :
    (t.sp = s.sp ∧ t.stack = s.stack ∧
      (t.pc = s.pc ∨ t.pc = s.pc + 2 ∨ ∃ addr, i = .jp addr ∧ t.pc = zext16 addr)) ∨
    (∃ addr, ∃ hlt : s.sp.val < Config.stackDepth, i = .call addr ∧ t.sp.val = s.sp.val + 1 ∧
      t.stack = s.stack.set s.sp.val s.pc hlt ∧ t.pc = zext16 addr) ∨
    (∃ k : Fin Config.stackDepth, i = .ret ∧ s.sp.val = k.val + 1 ∧ t.sp.val = k.val ∧ t.stack = s.stack ∧
      t.pc = s.stack[k.val]'k.isLt) := by
  have hc := exec_cases i s t h
  cases i with
  | ret =>
    obtain ⟨k, hk, rfl⟩ | ⟨-, rfl⟩ := hc
    · exact .inr (.inr ⟨k, rfl, hk, rfl, rfl, rfl⟩)
    · exact .inl ⟨rfl, rfl, .inl rfl⟩
  | call addr =>
    obtain ⟨hlt, rfl⟩ | ⟨-, rfl⟩ := hc
    · exact .inr (.inl ⟨addr, hlt, rfl, rfl, rfl, rfl⟩)
    · exact .inl ⟨rfl, rfl, .inl rfl⟩
  | jp addr => obtain rfl := hc; exact .inl ⟨rfl, rfl, .inr (.inr ⟨addr, rfl, rfl⟩)⟩
  | seImm x imm | sneImm x imm | seReg x y wantEqual =>
    obtain rfl := hc
    refine .inl ⟨rfl, rfl, ?_⟩
    rw [State.setPc_pc]
    split
    · simp
    · simp
  | drw x y n => obtain ⟨g, b, rfl⟩ | ⟨g, rfl⟩ := hc <;> exact .inl ⟨rfl, rfl, .inl rfl⟩
  | _ => obtain rfl := hc; exact .inl ⟨rfl, rfl, .inl rfl⟩

/-- A register is written by SetImmediate and AddImmediate that name it and, register 15 alone, by a Draw's flag (rules
R11, R12). -/
theorem exec_reg {i : Instr} {s t : State} (h : exec i s = .next t) (r : Nibble) :
    t.reg r = s.reg r ∨ (∃ imm, i = .ldImm r imm) ∨ (∃ imm, i = .addImm r imm) ∨
      (∃ x y n, i = .drw x y n ∧ r = flagReg ∧ ∃ b, t.reg r = flagByte b) := by
  have hc := exec_cases i s t h
  cases i with
  | ldImm x imm =>
    obtain rfl := hc
    by_cases e : r = x
    · subst e; exact .inr (.inl ⟨imm, rfl⟩)
    · exact .inl (s.reg_setReg_of_ne x r _ e)
  | addImm x imm =>
    obtain rfl := hc
    by_cases e : r = x
    · subst e; exact .inr (.inr (.inl ⟨imm, rfl⟩))
    · exact .inl (s.reg_setReg_of_ne x r _ e)
  | drw x y n =>
    obtain ⟨g, b, rfl⟩ | ⟨g, rfl⟩ := hc
    · by_cases e : r = flagReg
      · exact .inr (.inr (.inr ⟨x, y, n, rfl, e, b, by rw [State.reg_setFlag, if_pos e]⟩))
      · exact .inl (by rw [State.reg_setFlag, if_neg e, State.setGrid_reg])
    · exact .inl rfl
  | ret => obtain ⟨k, -, rfl⟩ | ⟨-, rfl⟩ := hc <;> exact .inl rfl
  | call addr => obtain ⟨hlt, rfl⟩ | ⟨-, rfl⟩ := hc <;> exact .inl rfl
  | _ => obtain rfl := hc; exact .inl rfl

/-- Only ClearScreen and Draw write the grid (rule R24). -/
theorem exec_grid {i : Instr} {s t : State} (h : exec i s = .next t) :
    t.grid = s.grid ∨ i = .cls ∨ ∃ x y n, i = .drw x y n := by
  have hc := exec_cases i s t h
  cases i with
  | cls => exact .inr (.inl rfl)
  | drw x y n => exact .inr (.inr ⟨x, y, n, rfl⟩)
  | ret => obtain ⟨k, -, rfl⟩ | ⟨-, rfl⟩ := hc <;> exact .inl rfl
  | call addr => obtain ⟨hlt, rfl⟩ | ⟨-, rfl⟩ := hc <;> exact .inl rfl
  | _ => obtain rfl := hc; exact .inl rfl

/-- A Draw's flag is 0 or 1 (rule R12). -/
theorem flagByte_eq_zero_or_one (b : Bool) : flagByte b = 0 ∨ flagByte b = 1 := by
  cases b
  · exact .inl rfl
  · exact .inr rfl

/-! ### Who writes which part -/

/-- Settles O32: each part has one lemma that names its owners. -/
theorem onlyItsOwnersWriteAPart : Obligations.OnlyItsOwnersWriteAPart := by
  intro i s t h
  refine ⟨fun r hr => ?_, fun hi => ?_, fun hst => ?_, fun px py hg => ?_⟩
  · obtain e | hld | hadd | ⟨x, y, n, hi, hr15, b, hb⟩ := exec_reg h r
    · exact absurd e hr
    · exact .inl hld
    · exact .inr (.inl hadd)
    · exact .inr (.inr ⟨x, y, n, hi, hr15, by rw [hb]; exact flagByte_eq_zero_or_one b⟩)
  · obtain e | ⟨addr, hi', -⟩ := exec_index h
    · exact absurd e hi
    · exact ⟨addr, hi'⟩
  · obtain ⟨hsp, hstack, -⟩ | ⟨addr, -, hi, -⟩ | ⟨k, hi, -⟩ := exec_control h
    · exact absurd hst (by simp [hsp, hstack])
    · exact .inl ⟨addr, hi⟩
    · exact .inr hi
  · obtain e | hi := exec_grid h
    · exact absurd (by rw [e]) hg
    · exact hi

/-- Settles O33: no tick writes memory, by induction on the ticks. -/
theorem memoryIsConstantAfterLoad : Obligations.MemoryIsConstantAfterLoad := by
  intro k s t h
  have himg : s.SameImage t := by
    refine run_keeps (P := s.SameImage) ?_ k s t ⟨rfl, rfl, rfl⟩ h
    rintro u v ⟨hmem, hbase, hlen⟩ huv
    obtain ⟨hmem', hbase', hlen'⟩ := step_sameImage huv
    exact ⟨hmem'.trans hmem, hbase'.trans hbase, hlen'.trans hlen⟩
  have ⟨_, hbase, hlen⟩ := himg
  exact ⟨himg.readByte?_eq, hbase, hlen⟩

/-! ### Properties of `pc` and of every live return address -/

/-- Every live return address has the property `P`. -/
def State.LiveAll (P : Word → Prop) (s : State) : Prop :=
  ∀ k : Fin Config.stackDepth, k.val < s.sp.val → P (s.stack[k.val]'k.isLt)

/-- What the advanced `pc` and every live return address have, every live return address has after the instruction: a
CallSubroutine pushes the advanced `pc`, and nothing else is pushed (rule R111). -/
theorem exec_keeps_liveAll {P : Word → Prop} {i : Instr} {s t : State} (h : exec i s = .next t) (hpc : P s.pc)
    (hlive : s.LiveAll P) : t.LiveAll P := by
  intro j hj
  obtain ⟨hsp, hstack, -⟩ | ⟨addr, hlt, -, hsp, hstack, -⟩ | ⟨k, -, hk, hsp, hstack, -⟩ := exec_control h
  · simpa only [hstack] using hlive j (by rwa [← hsp])
  · simp only [hstack, Vector.getElem_set]
    split
    · exact hpc
    · exact hlive j (by omega)
  · simpa only [hstack] using hlive j (by omega)

/-- What `pc` with and without a skip, every live return address and the target of a Jump or CallSubroutine have, `pc`
has after the instruction. -/
theorem exec_pc_keeps {P : Word → Prop} {i : Instr} {s t : State} (h : exec i s = .next t) (hpc : P s.pc)
    (hskip : P (s.pc + 2)) (hlive : s.LiveAll P)
    (htarget : ∀ addr, i = .jp addr ∨ i = .call addr → P (zext16 addr)) : P t.pc := by
  obtain ⟨-, -, e | e | ⟨addr, hi, e⟩⟩ | ⟨addr, -, hi, -, -, e⟩ | ⟨k, -, hk, -, -, e⟩ := exec_control h <;> rw [e]
  · exact hpc
  · exact hskip
  · exact htarget addr (.inl hi)
  · exact htarget addr (.inr hi)
  · exact hlive k (by omega)

/-! ### The invariant -/

/-- An address operand is a 12-bit number (30_encoding.md rule R70). -/
theorem toNat_zext16_le (addr : Addr) : (zext16 addr).toNat ≤ 0x0FFF := by
  rw [toNat_zext16]
  exact Nat.le_of_lt_succ addr.isLt

/-- Execution keeps the invariant when the advanced `pc` is at most `MEM_SIZE`, as it is after a permitted fetch. -/
theorem exec_keeps_inv {i : Instr} {s t : State} (hs : s.Inv) (hpc : s.pc.toNat ≤ Config.memSize)
    (h : exec i s = .next t) : t.Inv := by
  have hlive : s.LiveAll (fun v => v.toNat ≤ Config.memSize) := hs.returnsBounded
  obtain ⟨hmem, hbase, hlen⟩ := exec_sameImage h
  refine ⟨hmem ▸ hs.memCanonical, hmem ▸ hs.memInside, hbase ▸ hlen ▸ hs.extentFits, ?_, ?_,
    exec_keeps_liveAll h hpc hlive⟩
  · obtain e | ⟨addr, -, e⟩ := exec_index h <;> rw [e]
    · exact hs.indexIn12Bits
    · exact toNat_zext16_le addr
  · refine exec_pc_keeps (P := fun v => v.toNat ≤ Config.memSize + 2) h ?_ ?_ ?_ ?_
    · exact hs.pcBounded
    · rw [BitVec.toNat_add]; exact (Nat.mod_le _ _).trans (Nat.add_le_add_right hpc 2)
    · exact fun k hk => (hlive k hk).trans (Nat.le_add_right _ 2)
    · exact fun addr _ => (toNat_zext16_le addr).trans (by decide)

/-- A permitted fetch in a loaded extent that fits leaves the advanced `pc` at most `MEM_SIZE` (rules R91, R182). -/
theorem State.Inv.advance_le {s : State} (hs : s.Inv) (hp : s.fetchPermitted) :
    s.advance.pc.toNat ≤ Config.memSize := by
  have hfit := hs.extentFits
  obtain ⟨-, hend⟩ := hp
  rw [State.advance_pc, BitVec.toNat_add]
  exact (Nat.mod_le _ _).trans (hend.trans hfit)

/-- A tick keeps the invariant. -/
theorem step_keeps_inv (s t : State) (hs : s.Inv) (h : step s = .next t) : t.Inv := by
  obtain rfl | ⟨r, rfl⟩ | ⟨w, i, hp, -, -, he⟩ := step_next_cases h
  · exact hs
  · exact ⟨hs.memCanonical, hs.memInside, hs.extentFits, hs.indexIn12Bits, hs.pcBounded, hs.returnsBounded⟩
  · have hpc := hs.advance_le hp
    have hadv : s.advance.Inv := ⟨hs.memCanonical, hs.memInside, hs.extentFits, hs.indexIn12Bits,
      hpc.trans (Nat.le_add_right _ 2), hs.returnsBounded⟩
    exact exec_keeps_inv hadv hpc he

/-- Settles O34. -/
theorem everyTickKeepsTheInvariant : Obligations.EveryTickKeepsTheInvariant := step_keeps_inv

/-- A loaded machine meets the invariant (rules R180, R182). -/
theorem load_inv {img : List Byte} {base : Nat} {s : State} (h : State.load img base = .next s) : s.Inv := by
  obtain ⟨-, hfit, rfl⟩ := (State.load_eq_next img base s).1 h
  have hfit : base + img.length ≤ Config.memSize := of_decide_eq_true hfit
  refine ⟨Memory.wf_putBytes [] base img List.Pairwise.nil, fun c hc => ?_, hfit, Nat.zero_le _, ?_,
    fun k hk => absurd hk (Nat.not_lt_zero _)⟩
  · obtain ⟨-, hlt⟩ | hnil := Memory.keys_putBytes [] base c.1 img (List.mem_map_of_mem hc)
    · omega
    · simp at hnil
  · show (BitVec.ofNat 16 base).toNat ≤ _
    rw [BitVec.toNat_ofNat]
    exact (Nat.mod_le _ _).trans (by omega)

/-- Settles O36: the loaded state meets the invariant and every tick keeps it. -/
theorem everyRunFromALoadMeetsTheInvariant : Obligations.EveryRunFromALoadMeetsTheInvariant :=
  fun _ _ k s t hload hrun => run_keeps step_keeps_inv k s t (load_inv hload) hrun

/-- Settles O35: the state right after reset is the load of the empty image. -/
theorem resetMeetsTheInvariant : Obligations.ResetMeetsTheInvariant :=
  load_inv (img := []) (base := Config.defaultLoadBase) rfl

/-! ### Alignment -/

/-- Adding 2 keeps an even `pc` even, a wrap at 2^16 included. -/
theorem toNat_add_two_even {v : Word} (h : v.toNat % 2 = 0) : (v + 2).toNat % 2 = 0 := by
  rw [BitVec.toNat_add]
  show (v.toNat + 2) % 65536 % 2 = 0
  omega

/-- Settles O38: a tick moves `pc` by 2 or 4, to an even target, or to an even return address, and pushes `pc + 2`. -/
theorem evenTargetsKeepTheProgramCounterEven : Obligations.EvenTargetsKeepTheProgramCounterEven := by
  rintro s t ⟨hpc, hbase, hlive⟩ h htargets
  obtain rfl | ⟨r, rfl⟩ | ⟨w, i, -, hw, hd, he⟩ := step_next_cases h
  · exact ⟨hpc, hbase, hlive⟩
  · exact ⟨hpc, hbase, hlive⟩
  · have hadv : s.advance.pc.toNat % 2 = 0 := toNat_add_two_even hpc
    have hlive : s.advance.LiveAll (fun v => v.toNat % 2 = 0) := hlive
    obtain ⟨-, hbase', -⟩ := exec_sameImage he
    refine ⟨exec_pc_keeps he hadv (toNat_add_two_even hadv) hlive ?_, by rw [hbase']; exact hbase,
      exec_keeps_liveAll he hadv hlive⟩
    rintro addr (rfl | rfl) <;> rw [toNat_zext16]
    · exact htargets w addr hw (.inl hd)
    · exact htargets w addr hw (.inr hd)

/-! ### `pc` at the end of a cycle -/

/-- The advance and a skip together move `pc` by 4 (rule R123). -/
theorem pc_add_two_add_two (v : Word) : v + 2 + 2 = v + 4 := BitVec.add_assoc v 2 2

/-- Settles O15: the inversion of `exec` on the advanced state; the branches that halt contradict the status. -/
theorem pcAtTheEndOfTheCycle : Obligations.PcAtTheEndOfTheCycle := by
  intro s t w i hs hp hw hd h hrun
  rw [step_of_fetched s w i hs hp hw hd] at h
  have hc := exec_cases i s.advance t h
  cases i with
  | ret =>
    obtain ⟨k, hk, rfl⟩ | ⟨-, rfl⟩ := hc
    · exact ⟨k, hk.symm, rfl⟩
    · cases hrun
  | call addr =>
    obtain ⟨hlt, rfl⟩ | ⟨-, rfl⟩ := hc
    · exact toNat_zext16 addr
    · cases hrun
  | jp addr => obtain rfl := hc; exact toNat_zext16 addr
  | seImm x imm | sneImm x imm =>
    obtain rfl := hc
    simp only [State.setPc_pc, State.advance_pc, State.advance_reg, pc_add_two_add_two]
  | seReg x y wantEqual =>
    obtain rfl := hc
    have hwant : wantEqual = true := wellFormed_of_decodeWord hd
    simp only [State.setPc_pc, State.advance_pc, State.advance_reg, pc_add_two_add_two, hwant, iff_true]
  | drw x y n =>
    obtain ⟨g, b, rfl⟩ | ⟨g, rfl⟩ := hc
    · rfl
    · cases hrun
  | _ => obtain rfl := hc; rfl

/-! ### The state a load leaves -/

/-- Settles O42: the fields of the loaded state, and a read outside the image through the law of `putBytes`. -/
theorem loadResetsTheMachine : Obligations.LoadResetsTheMachine := by
  intro img base t h
  obtain ⟨-, hfit, rfl⟩ := (State.load_eq_next img base t).1 h
  have hfit : base + img.length ≤ Config.memSize := of_decide_eq_true hfit
  refine ⟨fun r => ?_, ?_, rfl, fun k => ?_, rfl, rfl, Grid.pixel_blank, fun a ha hout => ?_, fun a ha => ?_⟩
  · simp [State.reg, State.reset]
  · show (BitVec.ofNat 16 base).toNat = base
    rw [BitVec.toNat_ofNat]
    exact Nat.mod_eq_of_lt (lt_of_le_of_lt ((Nat.le_add_right _ _).trans hfit) (by decide))
  · simp [State.reset]
  · have hnone : (Memory.putBytes [] base img).byteAt? a = none := by
      rw [Memory.byteAt?_putBytes _ _ _ _ List.Pairwise.nil, if_neg (by omega)]
      rfl
    simp [State.readByte?, ha, hnone]
  · exact if_neg (by omega)

/-! ### Dead stack slots -/

/-- `s` with other stack slots. -/
def State.withStack (s : State) (v : Vector Word Config.stackDepth) : State := { s with stack := v }

/-- The slots of `v` that are live in `s` are those of `s`. -/
def State.AgreesLive (s : State) (v : Vector Word Config.stackDepth) : Prop :=
  ∀ k : Fin Config.stackDepth, k.val < s.sp.val → s.stack[k.val]'k.isLt = v[k.val]'k.isLt

/-- Being the same but for dead slots is having other slots that agree on the live ones. -/
theorem State.sameLive_iff {s t : State} : s.SameLive t ↔ ∃ v, s.AgreesLive v ∧ t = s.withStack v := by
  constructor
  · rintro ⟨hregs, hpc, hindex, hsp, hmem, hbase, hlen, hgrid, hstatus, hlive⟩
    refine ⟨t.stack, hlive, ?_⟩
    cases s
    cases t
    simp_all [State.withStack]
  · rintro ⟨v, hv, rfl⟩
    exact ⟨rfl, rfl, rfl, rfl, rfl, rfl, rfl, rfl, rfl, hv⟩

@[simp] theorem State.withStack_readByte (s : State) (v : Vector Word Config.stackDepth) (a : Nat) :
    (s.withStack v).readByte? a = s.readByte? a := rfl

@[simp] theorem State.withStack_rowAddr (s : State) (v : Vector Word Config.stackDepth) (r : Nat) :
    (s.withStack v).rowAddr r = s.rowAddr r := rfl

/-- The row loop of a Draw does not see the stack. -/
theorem State.drawRows_withStack (s : State) (v : Vector Word Config.stackDepth) (x0 y0 rows r : Nat) (c : Canvas) :
    (s.withStack v).drawRows x0 y0 rows r c = s.drawRows x0 y0 rows r c := by
  induction rows generalizing r c with
  | zero => rfl
  | succ rows ih =>
    unfold State.drawRows
    rw [State.withStack_rowAddr, State.withStack_readByte]
    cases s.readByte? (s.rowAddr r) with
    | none => rfl
    | some b => exact ih _ _

/-- A skip does not see the stack. -/
theorem State.skipWhen_withStack (s : State) (v : Vector Word Config.stackDepth) (equal want : Bool) :
    (s.withStack v).skipWhen equal want = (s.skipWhen equal want).withStack v := by
  rw [State.skipWhen_eq, State.skipWhen_eq]
  rfl

/-- A Draw does not see the stack. -/
theorem execDrw_withStack (x y n : Nibble) {s t : State} (v : Vector Word Config.stackDepth)
    (h : execDrw x y n s = .next t) : execDrw x y n (s.withStack v) = .next (t.withStack v) := by
  have hrows : (s.withStack v).drawRows ((s.withStack v).drawColumn x) ((s.withStack v).drawRow y) n.toNat 0
      ⟨(s.withStack v).grid, false⟩ = s.drawRows (s.drawColumn x) (s.drawRow y) n.toNat 0 ⟨s.grid, false⟩ :=
    s.drawRows_withStack v _ _ _ _ _
  unfold execDrw at h ⊢
  rw [hrows]
  cases hd : s.drawRows (s.drawColumn x) (s.drawRow y) n.toNat 0 ⟨s.grid, false⟩ with
  | complete c => rw [hd] at h; cases h; rfl
  | outOfBounds g => rw [hd] at h; cases h; rfl

/-- An instruction that is neither CallSubroutine nor Return does not see the stack at all. -/
theorem exec_withStack {i : Instr} {s t : State} (v : Vector Word Config.stackDepth) (hcall : ∀ addr, i ≠ .call addr)
    (hret : i ≠ .ret) (h : exec i s = .next t) : exec i (s.withStack v) = .next (t.withStack v) := by
  cases i with
  | call addr => exact absurd rfl (hcall addr)
  | ret => exact absurd rfl hret
  | seImm x imm | sneImm x imm | seReg x y wantEqual =>
    cases h
    exact congrArg Host.Outcome.next (s.skipWhen_withStack v _ _)
  | drw x y n => exact execDrw_withStack x y n v h
  | _ => cases h; rfl

/-- CallSubroutine overwrites the first dead slot and leaves the others dead (rule R111). -/
theorem execCall_sameLive (addr : Addr) {s : State} {v : Vector Word Config.stackDepth} (h : s.AgreesLive v) :
    ∃ s' t', execCall addr s = .next s' ∧ execCall addr (s.withStack v) = .next t' ∧ s'.SameLive t' := by
  by_cases hlt : s.sp.val < Config.stackDepth
  · refine ⟨_, _, execCall_below_capacity addr s hlt, execCall_below_capacity addr (s.withStack v) hlt,
      State.sameLive_iff.2 ⟨v.set s.sp.val s.pc hlt, fun k hk => ?_, rfl⟩⟩
    simp only [Vector.getElem_set]
    split
    · rfl
    · have hk : k.val < s.sp.val + 1 := hk
      exact h k (by omega)
  · have hfull : s.sp.val = Config.stackDepth :=
      Nat.le_antisymm (Nat.le_of_lt_succ s.sp.isLt) (Nat.le_of_not_lt hlt)
    exact ⟨_, _, execCall_at_capacity addr s hfull, execCall_at_capacity addr (s.withStack v) hfull,
      State.sameLive_iff.2 ⟨v, h, rfl⟩⟩

/-- Return reads the last live slot, which then is dead (rule R112). -/
theorem execRet_sameLive {s : State} {v : Vector Word Config.stackDepth} (h : s.AgreesLive v) :
    ∃ s' t', execRet s = .next s' ∧ execRet (s.withStack v) = .next t' ∧ s'.SameLive t' := by
  by_cases h0 : s.sp.val = 0
  · exact ⟨_, _, execRet_empty s h0, execRet_empty (s.withStack v) h0, State.sameLive_iff.2 ⟨v, h, rfl⟩⟩
  · obtain ⟨k, hk⟩ : ∃ k : Fin Config.stackDepth, s.sp.val = k.val + 1 := by
      have := s.sp.isLt
      exact ⟨⟨s.sp.val - 1, by omega⟩, (Nat.succ_pred_eq_of_ne_zero h0).symm⟩
    refine ⟨_, _, execRet_nonempty s k hk, execRet_nonempty (s.withStack v) k hk,
      State.sameLive_iff.2 ⟨v, fun j hj => ?_, ?_⟩⟩
    · have hj : j.val < k.val := hj
      exact h j (by omega)
    · rw [h k (by omega)]
      rfl

/-- No instruction sees a dead slot (rule R19). -/
theorem exec_sameLive (i : Instr) {s : State} {v : Vector Word Config.stackDepth} (h : s.AgreesLive v) :
    ∃ s' t', exec i s = .next s' ∧ exec i (s.withStack v) = .next t' ∧ s'.SameLive t' := by
  by_cases hcall : ∃ addr, i = .call addr
  · obtain ⟨addr, rfl⟩ := hcall
    exact execCall_sameLive addr h
  by_cases hret : i = .ret
  · subst hret
    exact execRet_sameLive h
  obtain ⟨s', hs'⟩ := exec_answers_next i s
  refine ⟨s', _, hs', exec_withStack v (fun addr e => hcall ⟨addr, e⟩) hret hs', State.sameLive_iff.2 ⟨v, ?_, rfl⟩⟩
  obtain ⟨hsp, hstack, -⟩ | ⟨addr, -, e, -⟩ | ⟨k, e, -⟩ := exec_control hs'
  · unfold State.AgreesLive
    rw [hsp, hstack]
    exact h
  · exact absurd ⟨addr, e⟩ hcall
  · exact absurd e hret

/-- Settles O39: the phases before execute do not look at the stack, and no instruction sees a dead slot. -/
theorem deadStackSlotsAreNeverObserved : Obligations.DeadStackSlotsAreNeverObserved := by
  intro s t hst
  obtain ⟨v, hv, rfl⟩ := State.sameLive_iff.1 hst
  rcases step_cases s with ⟨r, hr, e⟩ | ⟨hs, hp, e⟩ | ⟨hs, hp, hw, e⟩ | ⟨w, err, hs, hp, hw, hd, e⟩ |
    ⟨w, i, hs, hp, hw, hd, e⟩
  · rw [e, step_of_halted (s.withStack v) r hr]
    exact hst
  · rw [e, step_of_not_permitted (s.withStack v) hs hp]
    exact State.sameLive_iff.2 ⟨v, hv, rfl⟩
  · rw [e, step_of_no_memory (s.withStack v) hs hp hw]
    rfl
  · rw [e, step_of_undecodable (s.withStack v) w err hs hp hw hd]
    exact State.sameLive_iff.2 ⟨v, hv, rfl⟩
  · obtain ⟨s', t', hs', ht', hlive⟩ := exec_sameLive i (s := s.advance) hv
    rw [e, step_of_fetched (s.withStack v) w i hs hp hw hd, hs']
    have ht' : exec i (s.withStack v).advance = .next t' := ht'
    rw [ht']
    exact hlive

end Sys2Proof.Machine
end

section
/-! PROOFS. The statements of 30_encoding.md: the extractor as a slice, the decoder against the decode table, and the
decoder against the encoder. Decoder and encoder meet in `Spells`, what the fields of a word say. -/

namespace Sys2Proof.Machine

/-! ### The extractor -/

/-- The slice as a number (rule R60). -/
theorem toNat_extract (w : Word) (start stop : Nat) (h : start < stop ∧ stop ≤ 16) :
    (extract w start stop h).toNat = w.toNat / 2 ^ (16 - stop) % 2 ^ (stop - start) := by
  rw [extract, BitVec.extractLsb'_toNat, Nat.shiftRight_eq_div_pow]

/-- The hex digit as a number (rule R61). -/
theorem toNat_nibble (w : Word) (k : Fin 4) : (nibble w k).toNat = w.toNat / 2 ^ (12 - 4 * k.val) % 16 := by
  rw [nibble, BitVec.extractLsb'_toNat, Nat.shiftRight_eq_div_pow]

/-- Settles O1: `extract` is core's bit slice, the range counted from the other end. -/
theorem extractIsTheMsbFirstSlice : Obligations.ExtractIsTheMsbFirstSlice := by
  intro w start stop h
  refine ⟨toNat_extract w start stop h, fun k hk => ?_, BitVec.extractLsb'_eq_self⟩
  rw [extract, BitVec.getLsbD_extractLsb', decide_eq_true hk, Bool.true_and]

/-- Settles O2: digit `k` and the range `[4k, 4k + 4)` are the same quotient and remainder. -/
theorem nibbleIsTheHexDigitAtItsPosition : Obligations.NibbleIsTheHexDigitAtItsPosition := by
  intro w k h
  refine ⟨toNat_nibble w k, ?_⟩
  have hshift : 16 - (4 * k.val + 4) = 12 - 4 * k.val := by omega
  rw [toNat_nibble, toNat_extract, Nat.add_sub_cancel_left, hshift]
  rfl

/-! ### A word and its nibbles -/

theorem fieldNNN_eq_append (w : Word) : fieldNNN w = fieldX w ++ fieldKK w :=
  (BitVec.extractLsb'_append_extractLsb'_eq_extractLsb' (start₁ := 0) (len₁ := 8) (len₂ := 4) rfl).symm

theorem fieldKK_eq_append (w : Word) : fieldKK w = fieldY w ++ fieldN w :=
  (BitVec.extractLsb'_append_extractLsb'_eq_extractLsb' (start₁ := 0) (len₁ := 4) (len₂ := 4) rfl).symm

/-- The class and the twelve low bits determine a word. -/
theorem word_ext_class {w v : Word} (hC : fieldC w = fieldC v) (hNNN : fieldNNN w = fieldNNN v) : w = v := by
  rw [← word_eq_class_append w, hC, hNNN, word_eq_class_append]

/-- Class, `X` and `KK` determine a word. -/
theorem word_ext_byte {w v : Word} (hC : fieldC w = fieldC v) (hX : fieldX w = fieldX v)
    (hKK : fieldKK w = fieldKK v) : w = v :=
  word_ext_class hC (by rw [fieldNNN_eq_append, hX, hKK, ← fieldNNN_eq_append])

/-- The four nibbles determine a word. -/
theorem word_ext_nibbles {w v : Word} (hC : fieldC w = fieldC v) (hX : fieldX w = fieldX v)
    (hY : fieldY w = fieldY v) (hN : fieldN w = fieldN v) : w = v :=
  word_ext_byte hC hX (by rw [fieldKK_eq_append, hY, hN, ← fieldKK_eq_append])

/-- A digit of a masked word is the digit masked by the mask's digit. -/
theorem nibble_and (w m : Word) (k : Fin 4) : nibble (w &&& m) k = nibble w k &&& nibble m k :=
  BitVec.extractLsb'_and

/-- Where the mask's digit is all ones, a masked word shows the word's own digit. -/
theorem nibble_of_and_eq {w m v : Word} {k : Fin 4} (h : w &&& m = v) (hm : nibble m k = 0xF) :
    nibble w k = nibble v k := by
  rw [← h, nibble_and, hm]
  exact BitVec.and_allOnes.symm

/-- Words with the same digit `k` keep it the same under any mask. -/
theorem nibble_and_congr {w v : Word} {k : Fin 4} (m : Word) (h : nibble w k = nibble v k) :
    nibble (w &&& m) k = nibble (v &&& m) k := by
  rw [nibble_and, nibble_and, h]

/-- Where the mask's digit is zero, no digit of the word shows. -/
theorem nibble_and_of_zero (w v : Word) {m : Word} {k : Fin 4} (hm : nibble m k = 0) :
    nibble (w &&& m) k = nibble (v &&& m) k := by
  rw [nibble_and, nibble_and, hm]
  exact BitVec.and_zero.trans BitVec.and_zero.symm

/-! ### What a word spells -/

/-- The fields of `w` are those of `i`'s row of the decode table, with `i`'s operands (rules R64, R67). Nothing is said of
the bits that the decoder ignores (rules R68, R69). -/
def Spells (w : Word) : Instr → Prop
  | .cls => fieldC w = 0x0 ∧ fieldN w = 0x0
  | .ret => fieldC w = 0x0 ∧ fieldN w = 0xE
  | .jp addr => fieldC w = 0x1 ∧ fieldNNN w = addr
  | .call addr => fieldC w = 0x2 ∧ fieldNNN w = addr
  | .seImm x imm => fieldC w = 0x3 ∧ fieldX w = x ∧ fieldKK w = imm
  | .sneImm x imm => fieldC w = 0x4 ∧ fieldX w = x ∧ fieldKK w = imm
  | .seReg x y wantEqual => fieldC w = 0x5 ∧ fieldX w = x ∧ fieldY w = y ∧ wantEqual = true
  | .ldImm x imm => fieldC w = 0x6 ∧ fieldX w = x ∧ fieldKK w = imm
  | .addImm x imm => fieldC w = 0x7 ∧ fieldX w = x ∧ fieldKK w = imm
  | .ldI addr => fieldC w = 0xA ∧ fieldNNN w = addr
  | .drw x y n => fieldC w = 0xD ∧ fieldX w = x ∧ fieldY w = y ∧ fieldN w = n

/-- The decoder's branches, read backwards (rules R66, R67). -/
theorem spells_of_decodeWord {w : Word} {i : Instr} (h : decodeWord w = .instr i) : Spells w i := by
  unfold decodeWord at h
  split at h
  case h_1 hC =>
    split at h
    case h_1 hN | h_2 hN => cases h; exact ⟨BitVec.eq_of_toNat_eq hC, BitVec.eq_of_toNat_eq hN⟩
    case h_3 => cases h
  case h_2 hC | h_3 hC | h_9 hC => cases h; exact ⟨BitVec.eq_of_toNat_eq hC, rfl⟩
  case h_4 hC | h_5 hC | h_7 hC | h_8 hC => cases h; exact ⟨BitVec.eq_of_toNat_eq hC, rfl, rfl⟩
  case h_6 hC | h_10 hC => cases h; exact ⟨BitVec.eq_of_toNat_eq hC, rfl, rfl, rfl⟩
  case h_11 => cases h

/-- The decoder looks at no field that `Spells` leaves out (rules R65, R68, R69). -/
theorem decodeWord_of_spells {w : Word} {i : Instr} (h : Spells w i) : decodeWord w = .instr i := by
  cases i with
  | cls | ret =>
    obtain ⟨hC, hN⟩ := h
    simp [decodeWord, hC, hN]
  | jp | call | ldI =>
    obtain ⟨hC, rfl⟩ := h
    simp [decodeWord, hC]
  | seImm | sneImm | ldImm | addImm =>
    obtain ⟨hC, rfl, rfl⟩ := h
    simp [decodeWord, hC]
  | seReg | drw =>
    obtain ⟨hC, rfl, rfl, rfl⟩ := h
    simp [decodeWord, hC]

/-- The word the assembler emits for an instruction spells it (rule R79). -/
theorem spells_of_encode {w : Word} {i : Instr} (h : encode i = some w) : Spells w i := by
  cases i with
  | cls | ret => cases h; exact ⟨rfl, rfl⟩
  | jp | call | ldI => cases h; exact ⟨fieldC_append _ _, fieldNNN_append _ _⟩
  | seImm | sneImm | ldImm | addImm =>
    cases h; exact ⟨fieldC_append _ _, fieldX_append _ _ _, fieldKK_append _ _ _⟩
  | drw =>
    cases h; exact ⟨fieldC_append _ _, fieldX_append _ _ _, fieldY_append _ _ _ _, fieldN_append _ _ _ _⟩
  | seReg x y wantEqual =>
    cases wantEqual with
    | false => cases h
    | true => cases h; exact ⟨fieldC_append _ _, fieldX_append _ _ _, fieldY_append _ _ _ _, rfl⟩

/-- Every well-formed instruction has an encoding (rule R81). -/
theorem exists_encode_of_wellFormed {i : Instr} (h : i.wellFormed = true) : ∃ w, encode i = some w := by
  cases i with
  | seReg x y wantEqual =>
    obtain rfl : wantEqual = true := h
    exact ⟨_, rfl⟩
  | _ => exact ⟨_, rfl⟩

/-- Words that spell the same instruction agree on the bits the decoder looks at (rules R65, R68, R69). -/
theorem Spells.and_significantBits_eq {w v : Word} {i : Instr} (hw : Spells w i) (hv : Spells v i) :
    w &&& significantBits i = v &&& significantBits i := by
  cases i with
  | cls | ret =>
    obtain ⟨hwC, hwN⟩ := hw
    obtain ⟨hvC, hvN⟩ := hv
    exact word_ext_nibbles (nibble_and_congr _ (hwC.trans hvC.symm)) (nibble_and_of_zero _ _ rfl)
      (nibble_and_of_zero _ _ rfl) (nibble_and_congr _ (hwN.trans hvN.symm))
  | jp | call | ldI =>
    obtain ⟨hwC, hwA⟩ := hw
    obtain ⟨hvC, hvA⟩ := hv
    rw [word_ext_class (hwC.trans hvC.symm) (hwA.trans hvA.symm)]
  | seImm | sneImm | ldImm | addImm =>
    obtain ⟨hwC, hwX, hwK⟩ := hw
    obtain ⟨hvC, hvX, hvK⟩ := hv
    rw [word_ext_byte (hwC.trans hvC.symm) (hwX.trans hvX.symm) (hwK.trans hvK.symm)]
  | seReg x y wantEqual =>
    obtain ⟨hwC, hwX, hwY, -⟩ := hw
    obtain ⟨hvC, hvX, hvY, -⟩ := hv
    exact word_ext_nibbles (nibble_and_congr _ (hwC.trans hvC.symm)) (nibble_and_congr _ (hwX.trans hvX.symm))
      (nibble_and_congr _ (hwY.trans hvY.symm)) (nibble_and_of_zero w v (m := 0xFFF0) rfl)
  | drw =>
    obtain ⟨hwC, hwX, hwY, hwN⟩ := hw
    obtain ⟨hvC, hvX, hvY, hvN⟩ := hv
    rw [word_ext_nibbles (hwC.trans hvC.symm) (hwX.trans hvX.symm) (hwY.trans hvY.symm) (hwN.trans hvN.symm)]

/-! ### Decoder and encoder -/

/-- Settles O6: a well-formed instruction has an encoding, which spells the instruction, and the decoder reads it. -/
theorem encodedInstructionDecodesBack : Obligations.EncodedInstructionDecodesBack := by
  refine ⟨fun i hi => ?_, fun _ _ => rfl, fun w i h => wellFormed_of_decodeWord h⟩
  obtain ⟨w, hw⟩ := exists_encode_of_wellFormed hi
  exact ⟨w, hw, decodeWord_of_spells (spells_of_encode hw)⟩

/-- What a word spells has an encoding, the word itself but for the ignored bits (rules R68, R69, R81). -/
theorem exists_encode_of_spells {w : Word} {i : Instr} (h : Spells w i) :
    ∃ w', encode i = some w' ∧ w' &&& significantBits i = w &&& significantBits i := by
  obtain ⟨w', hw'⟩ := exists_encode_of_wellFormed (wellFormed_of_decodeWord (decodeWord_of_spells h))
  exact ⟨w', hw', (spells_of_encode hw').and_significantBits_eq h⟩

/-- Settles O7: the word and the encoding of what it decodes to spell the same instruction. -/
theorem wordReencodesButForIgnoredBits : Obligations.WordReencodesButForIgnoredBits := by
  intro w i h
  exact exists_encode_of_spells (spells_of_decodeWord h)

/-! ### The decode table -/

/-- Every instruction stands for a row of the decode table (rule R67). -/
theorem row_mem_decodeRows (i : Instr) : (Laws.MatchesRow.mask i, Laws.MatchesRow.value i) ∈ decodeRows := by
  cases i <;> simp [Laws.MatchesRow.mask, Laws.MatchesRow.value, decodeRows]

/-- The encoding of an instruction lies in the instruction's row. -/
theorem encode_matchesRow : ∀ i : Instr, Laws.MatchesRow.Statement i
  | .cls => Laws.MatchesRow.cls
  | .ret => Laws.MatchesRow.ret
  | .jp _ => Laws.MatchesRow.jp _
  | .call _ => Laws.MatchesRow.call _
  | .seImm _ _ => Laws.MatchesRow.seImm _ _
  | .sneImm _ _ => Laws.MatchesRow.sneImm _ _
  | .seReg _ _ _ => Laws.MatchesRow.seReg _ _ _
  | .ldImm _ _ => Laws.MatchesRow.ldImm _ _
  | .addImm _ _ => Laws.MatchesRow.addImm _ _
  | .ldI _ => Laws.MatchesRow.ldI _
  | .drw _ _ _ => Laws.MatchesRow.drw _ _ _

/-- A row's mask tests only bits that the decoder looks at. -/
theorem significantBits_and_mask (i : Instr) :
    significantBits i &&& Laws.MatchesRow.mask i = Laws.MatchesRow.mask i := by
  cases i with
  | cls | ret => exact BitVec.and_self
  | seReg => exact (by decide : (0xFFF0 : Word) &&& 0xF000 = 0xF000)
  | _ => exact (by decide : (0xFFFF : Word) &&& 0xF000 = 0xF000)

/-- A word that spells an instruction matches the instruction's row (rule R67). -/
theorem Spells.matchesRow {w : Word} {i : Instr} (h : Spells w i) :
    w &&& Laws.MatchesRow.mask i = Laws.MatchesRow.value i := by
  obtain ⟨w', hw', hsig⟩ := exists_encode_of_spells h
  calc
    w &&& Laws.MatchesRow.mask i = (w &&& significantBits i) &&& Laws.MatchesRow.mask i := by
      rw [BitVec.and_assoc, significantBits_and_mask]
    _ = w' &&& Laws.MatchesRow.mask i := by rw [← hsig, BitVec.and_assoc, significantBits_and_mask]
    _ = Laws.MatchesRow.value i := encode_matchesRow i w' hw'

/-- A word is a decode error only as itself, never as truncated bytes (rule R72). -/
theorem error_of_decodeWord {w : Word} {e : DecodeError} (h : decodeWord w = .error e) :
    e = .unrecognizedOpcode w := by
  unfold decodeWord at h
  split at h
  case h_1 =>
    split at h
    case h_3 => cases h; rfl
    all_goals cases h
  case h_11 => cases h; rfl
  all_goals cases h

/-- Every word is an instruction or the error that carries it (rules R66, R72). -/
theorem decodeWord_instr_or_error (w : Word) :
    (∃ i, decodeWord w = .instr i) ∨ decodeWord w = .error (.unrecognizedOpcode w) := by
  cases hd : decodeWord w with
  | instr i => exact .inl ⟨i, rfl⟩
  | error e => exact .inr (error_of_decodeWord hd ▸ rfl)

/-- Settles O3: the masked word fixes the fields that the row's instruction has. -/
theorem decodeFollowsTheTable : Obligations.DecodeFollowsTheTable := by
  intro w
  refine ⟨fun h => ?_, fun h => ?_, fun h => ?_, fun h => ?_, fun h => ?_, fun h => ?_, fun h => ?_, fun h => ?_,
    fun h => ?_, fun h => ?_, fun h => ?_, fun h => ?_⟩
  case refine_1 | refine_2 => exact decodeWord_of_spells ⟨nibble_of_and_eq h rfl, nibble_of_and_eq h rfl⟩
  case refine_3 | refine_4 | refine_10 => exact decodeWord_of_spells ⟨nibble_of_and_eq h rfl, rfl⟩
  case refine_5 | refine_6 | refine_8 | refine_9 => exact decodeWord_of_spells ⟨nibble_of_and_eq h rfl, rfl, rfl⟩
  case refine_7 | refine_11 => exact decodeWord_of_spells ⟨nibble_of_and_eq h rfl, rfl, rfl, rfl⟩
  case refine_12 =>
    obtain ⟨i, hi⟩ | he := decodeWord_instr_or_error w
    · exact absurd (spells_of_decodeWord hi).matchesRow (h _ (row_mem_decodeRows i))
    · exact he

/-- Two rows that agree where both masks look are the same row: no two share the class, but for the two of class 0, which
differ in the sub-nibble. -/
theorem decodeRows_compatible_eq : ∀ i j : Fin decodeRows.length,
    (decodeRows.get i).2 &&& (decodeRows.get j).1 = (decodeRows.get j).2 &&& (decodeRows.get i).1 → i = j := by
  decide

/-- Settles O4: two rows that one word matches agree where both masks look. -/
theorem decodeTableRowsDoNotOverlap : Obligations.DecodeTableRowsDoNotOverlap := by
  intro w i j hi hj
  apply decodeRows_compatible_eq
  rw [← hi, ← hj, BitVec.and_assoc, BitVec.and_comm (decodeRows.get i).1, BitVec.and_assoc]

/-- The class is none of the table's, or it is class 0 with a sub-nibble other than 0 and E (rule R75). -/
theorem decodeWord_eq_error_iff (w : Word) : decodeWord w = .error (.unrecognizedOpcode w) ↔
    w.toNat / 4096 ∉ [0, 1, 2, 3, 4, 5, 6, 7, 10, 13] ∨ (w.toNat / 4096 = 0 ∧ w.toNat % 16 ∉ [0, 14]) := by
  rw [← toNat_fieldC, ← toNat_fieldN]
  unfold decodeWord
  split
  case h_1 hC =>
    split
    case h_3 h0 hE => simpa [hC] using ⟨h0, hE⟩
    all_goals simp [*]
  case h_11 => simp; tauto
  all_goals simp [*]

/-- Settles O5, from the decoder's own case split. -/
theorem illegalWordsAreExactlyThese : Obligations.IllegalWordsAreExactlyThese :=
  fun w => ⟨decodeWord_eq_error_iff w, decodeWord_instr_or_error w⟩

/-- Settles O8, word by word. -/
theorem writtenWordsDecodeRight : Obligations.WrittenWordsDecodeRight := by
  unfold Obligations.WrittenWordsDecodeRight
  decide

end Sys2Proof.Machine
end

section
/-! PROOFS. The statements of 40_cycle_pipeline.md: what a tick does with the word it fetches, when an instruction halts,
what `pc` then holds, and that Halted is terminal. -/

namespace Sys2Proof.Machine

/-! ### Fetch and decode -/

/-- Two bytes that are read are the word that is read, the byte at the lower address in front (20_memory.md rule R41). -/
theorem State.readWord?_of_bytes {s : State} {a : Nat} {hi lo : Byte} (hhi : s.readByte? a = some hi)
    (hlo : s.readByte? (a + 1) = some lo) : s.readWord? a = some (hi ++ lo) :=
  (s.readWord?_eq_some a _).2 ⟨hi, lo, hhi, hlo, rfl⟩

/-- A halt writes the status and nothing else (60_exceptions.md rule R156). -/
theorem State.unchangedBut_raise (s : State) (r : HaltReason) : s.UnchangedBut [.status] (s.raise r) := by
  intro p hp
  cases p with
  | status => exact absurd (List.mem_singleton_self _) hp
  | regs => exact s.raise_reg r
  | pc => exact s.raise_pc r
  | index => exact s.raise_index r
  | stack => exact ⟨s.raise_sp r, fun _ => rfl⟩
  | memory => exact ⟨s.raise_readByte r, s.raise_loadBase r, s.raise_imgLen r⟩
  | grid => exact fun _ _ => rfl

/-- Settles O9: the two bytes are the word the tick fetches. -/
theorem stepRunsTheDecodedInstruction : Obligations.StepRunsTheDecodedInstruction := by
  intro s hi lo i hs hbase hend hhi hlo hd
  exact step_of_fetched s (hi ++ lo) i hs ⟨hbase, hend⟩ (State.readWord?_of_bytes hhi hlo) hd

/-- Settles O12: the two bytes are the word the tick fetches, and the halt is all that the tick does. -/
theorem undecodableWordHalts : Obligations.UndecodableWordHalts := by
  intro s hi lo e hs hbase hend hhi hlo hd
  have hw := State.readWord?_of_bytes hhi hlo
  exact ⟨_, step_of_undecodable s (hi ++ lo) e hs ⟨hbase, hend⟩ hw hd, rfl, s.unchangedBut_raise _⟩

/-! ### Halted is terminal -/

/-- Settles O14, by induction on the ticks: the first one answers the halted state itself. -/
theorem haltedIsTerminal : Obligations.HaltedIsTerminal := by
  intro s r k hr
  induction k with
  | zero => exact run_zero s
  | succ k ih => rw [run_succ_of_next k s s (step_of_halted s r hr), ih]

/-! ### When an instruction halts -/

/-- A read answers nothing exactly at `MEM_SIZE` and above (20_memory.md rule R47). -/
theorem State.readByte?_eq_none (s : State) (a : Nat) : s.readByte? a = none ↔ Config.memSize ≤ a := by
  rw [← Option.not_isSome_iff_eq_none, State.readByte?_isSome, Nat.not_lt]

/-- A row loop that stops early has a row left with no memory under it (44_display.md rule R143). -/
theorem State.exists_row_outside_of_drawRows {s : State} {x0 y0 rows r : Nat} {c : Canvas} {g : Grid}
    (h : s.drawRows x0 y0 rows r c = .outOfBounds g) : ∃ k < rows, Config.memSize ≤ s.rowAddr (r + k) := by
  induction rows generalizing r c with
  | zero => cases h
  | succ rows ih =>
    unfold State.drawRows at h
    cases hb : s.readByte? (s.rowAddr r) with
    | none => exact ⟨0, rows.succ_pos, (s.readByte?_eq_none _).1 hb⟩
    | some b =>
      rw [hb] at h
      obtain ⟨k, hk, hout⟩ := ih h
      exact ⟨k + 1, Nat.succ_lt_succ hk, by rwa [Nat.add_right_comm] at hout⟩

/-- A Draw keeps the status, or it has at least one row, reaches past the end of memory, and halts with `pc` where it was
(44_display.md rule R143). -/
theorem execDrw_status {x y n : Nibble} {s t : State} (h : execDrw x y n s = .next t) :
    t.status = s.status ∨
      (t.pc = s.pc ∧ 0 < n.toNat ∧ Config.memSize < s.index.toNat + n.toNat ∧ t.status = .halted .outOfBoundsRead) := by
  unfold execDrw at h
  split at h
  next => cases h; exact .inl rfl
  next g hg =>
    cases h
    obtain ⟨k, hk, hout⟩ := State.exists_row_outside_of_drawRows hg
    unfold State.rowAddr at hout
    exact .inr ⟨rfl, by omega, by omega, rfl⟩

/-- An instruction keeps the status, or it keeps `pc` and halts by its own fault: CallSubroutine at capacity, Return on the
empty stack, Draw past the end of memory (rules R95, R99). -/
theorem exec_status {i : Instr} {s t : State} (h : exec i s = .next t) :
    t.status = s.status ∨ (t.pc = s.pc ∧
      ((∃ addr, i = .call addr ∧ s.sp.val = Config.stackDepth ∧ t.status = .halted .stackOverflow) ∨
       (i = .ret ∧ s.sp.val = 0 ∧ t.status = .halted .stackUnderflow) ∨
       (∃ x y n, i = .drw x y n ∧ 0 < n.toNat ∧ Config.memSize < s.index.toNat + n.toNat ∧
         t.status = .halted .outOfBoundsRead))) := by
  have hc := exec_cases i s t h
  cases i with
  | call addr =>
    obtain ⟨-, rfl⟩ | ⟨hfull, rfl⟩ := hc
    · exact .inl rfl
    · exact .inr ⟨rfl, .inl ⟨addr, rfl, hfull, rfl⟩⟩
  | ret =>
    obtain ⟨k, -, rfl⟩ | ⟨hempty, rfl⟩ := hc
    · exact .inl rfl
    · exact .inr ⟨rfl, .inr (.inl ⟨rfl, hempty, rfl⟩)⟩
  | drw x y n =>
    obtain e | ⟨hpc, hrows, hpast, hhalt⟩ := execDrw_status h
    · exact .inl e
    · exact .inr ⟨hpc, .inr (.inr ⟨x, y, n, rfl, hrows, hpast, hhalt⟩)⟩
  | _ => obtain rfl := hc; exact .inl rfl

/-- Settles O17. -/
theorem onlyTheirOwnFaultsHaltInstructions : Obligations.OnlyTheirOwnFaultsHaltInstructions := by
  intro i s t h hne
  obtain ⟨-, hfault⟩ := (exec_status h).resolve_left hne
  exact hfault

/-! ### `pc` when a tick halts -/

/-- Settles O16: a halt before the execute phase leaves `pc` at the fetch address, and an instruction that halts leaves the
advanced `pc` it was given. -/
theorem pcInTheHaltedState : Obligations.PcInTheHaltedState := by
  intro s t r hs h hr
  obtain ⟨r', hr', -⟩ | ⟨-, -, e⟩ | ⟨-, -, -, e⟩ | ⟨w, err, -, -, hw, -, e⟩ | ⟨w, i, -, -, -, -, e⟩ := step_cases s
  · rw [hs] at hr'; cases hr'
  · rw [e] at h; cases h; cases hr; rfl
  · rw [e] at h; cases h
  · rw [e] at h; cases h; cases hr; exact ⟨rfl, hw⟩
  · rw [e] at h
    obtain hkept | ⟨hpc, ⟨addr, -, -, hhalt⟩ | ⟨-, -, hhalt⟩ | ⟨x, y, n, -, -, -, hhalt⟩⟩ := exec_status h
    · rw [hkept, State.advance_status, hs] at hr; cases hr
    all_goals rw [hhalt] at hr; cases hr; exact hpc

end Sys2Proof.Machine
end

section
/-! PROOFS. The statements of 41_control_flow.md: what Jump, CallSubroutine and Return change and leave alone, and that a
Return undoes a CallSubroutine. -/

namespace Sys2Proof.Machine

/-! ### Frames -/

/-- A write of `pc` leaves every other part alone (10_state.md rule R13). -/
theorem State.unchangedBut_setPc (s : State) (v : Word) : s.UnchangedBut [.pc] (s.setPc v) := by
  intro p hp
  cases p with
  | pc => exact absurd (List.mem_singleton_self _) hp
  | regs => exact s.setPc_reg v
  | index => exact s.setPc_index v
  | stack => exact ⟨s.setPc_sp v, fun _ => rfl⟩
  | memory => exact ⟨s.setPc_readByte v, s.setPc_loadBase v, s.setPc_imgLen v⟩
  | grid => exact fun _ _ => rfl
  | status => exact s.setPc_status v

/-- A write of the call stack and of `pc` leaves every other part alone (10_state.md rules R13, R18). -/
theorem State.unchangedBut_stack_pc (s : State) (stack : Vector Word Config.stackDepth)
    (sp : Fin (Config.stackDepth + 1)) (pc : Word) :
    s.UnchangedBut [.pc, .stack] { s with stack := stack, sp := sp, pc := pc } := by
  intro p hp
  cases p with
  | pc | stack => simp at hp
  | regs => exact fun _ => rfl
  | index => rfl
  | memory => exact ⟨fun _ => rfl, rfl, rfl⟩
  | grid => exact fun _ _ => rfl
  | status => rfl

/-! ### Jump, CallSubroutine and Return -/

/-- Settles O19: the class alone fixes the row, and Jump is one write of `pc`. -/
theorem jumpSetsTheProgramCounter : Obligations.JumpSetsTheProgramCounter := by
  refine ⟨fun w h => decodeWord_of_spells ⟨nibble_of_and_eq h rfl, rfl⟩, fun addr s => ?_⟩
  exact ⟨s.setPc (zext16 addr), rfl, toNat_zext16 addr, s.unchangedBut_setPc _⟩

/-- Settles O20: below capacity the pushed slot is the one at `sp`, and at capacity the halt is all that happens. -/
theorem callPushesTheReturnAddressOrOverflows : Obligations.CallPushesTheReturnAddressOrOverflows := by
  refine ⟨fun w h => decodeWord_of_spells ⟨nibble_of_and_eq h rfl, rfl⟩, fun addr s k hk => ?_, fun addr s hfull => ?_⟩
  · have hlt : s.sp.val < Config.stackDepth := hk ▸ k.isLt
    obtain rfl : k = ⟨s.sp.val, hlt⟩ := Fin.ext hk.symm
    refine ⟨_, execCall_below_capacity addr s hlt, Vector.getElem_set_self hlt, rfl, toNat_zext16 addr, fun j hj => ?_,
      s.unchangedBut_stack_pc _ _ _⟩
    exact Vector.getElem_set_ne hlt j.isLt (fun e => hj (Fin.ext e.symm))
  · exact ⟨_, execCall_at_capacity addr s hfull, rfl, s.unchangedBut_raise _⟩

/-- Settles O21: on a nonempty stack only `sp` and `pc` are written, and on the empty one the halt is all that happens. -/
theorem returnPopsIntoTheProgramCounterOrUnderflows : Obligations.ReturnPopsIntoTheProgramCounterOrUnderflows := by
  refine ⟨fun w h => decodeWord_of_spells ⟨nibble_of_and_eq h rfl, nibble_of_and_eq h rfl⟩, fun s k hk => ?_,
    fun s hempty => ?_⟩
  · exact ⟨_, execRet_nonempty s k hk, rfl, rfl, fun _ => rfl, s.unchangedBut_stack_pc _ _ _⟩
  · exact ⟨_, execRet_empty s hempty, rfl, s.unchangedBut_raise _⟩

/-! ### A call and its return -/

/-- The state that CallSubroutine makes below capacity (rule R111). -/
def State.called (s : State) (addr : Addr) (hlt : s.sp.val < Config.stackDepth) : State :=
  { s with stack := s.stack.set s.sp.val s.pc hlt, sp := ⟨s.sp.val + 1, Nat.succ_lt_succ hlt⟩, pc := zext16 addr }

/-- A Return from any `pc` in a called state undoes the call but for the pushed slot (rule R113). -/
theorem execRet_called (s : State) (addr : Addr) (hlt : s.sp.val < Config.stackDepth) (v : Word) :
    execRet ((s.called addr hlt).setPc v) = .next { s with stack := s.stack.set s.sp.val s.pc hlt } := by
  rw [execRet_nonempty _ ⟨s.sp.val, hlt⟩ rfl]
  simp only [State.called, State.setPc, Vector.getElem_set_self]

/-- Settles O40: the first tick is the call and the second, which fetches at the target, the return. -/
theorem callThenReturnComesBack : Obligations.CallThenReturnComesBack := by
  intro s addr w v k hs hp hw hcall hk hbase hend hv hret
  have hlt : s.sp.val < Config.stackDepth := hk ▸ k.isLt
  obtain rfl : k = ⟨s.sp.val, hlt⟩ := Fin.ext hk.symm
  have htick1 : step s = .next (s.advance.called addr hlt) := by
    rw [step_of_fetched s w _ hs hp hw hcall]
    exact execCall_below_capacity addr s.advance hlt
  rw [← toNat_zext16] at hbase hend hv
  have htick2 : step (s.advance.called addr hlt) =
      .next { s.advance with stack := s.stack.set s.sp.val (s.pc + 2) hlt } := by
    rw [step_of_fetched (s.advance.called addr hlt) v _ hs ⟨hbase, hend⟩ hv hret]
    exact execRet_called s.advance addr hlt _
  rw [run_succ_of_next 1 _ _ htick1, run_succ_of_next 0 _ _ htick2, run_zero]
  rfl

end Sys2Proof.Machine
end

section
/-! PROOFS. The statements of 42_conditional_skip.md: when the three compares skip, and that they write only `pc`. -/

namespace Sys2Proof.Machine

/-- A skip taken exactly when `P` holds moves `pc` by one instruction exactly then, and writes nothing else (rule R123). -/
theorem State.skipWhen_pc_and_frame (s : State) {equal want : Bool} {P : Prop} [Decidable P] (hP : equal = want ↔ P) :
    (s.skipWhen equal want).pc = (if P then s.pc + 2 else s.pc) ∧ s.UnchangedBut [.pc] (s.skipWhen equal want) := by
  rw [State.skipWhen_eq]
  exact ⟨if_congr hP rfl rfl, s.unchangedBut_setPc _⟩

/-- Settles O22: the class alone fixes the row, and the compare wants equality. -/
theorem skipIfEqualImmediate : Obligations.SkipIfEqualImmediate := by
  refine ⟨fun w h => decodeWord_of_spells ⟨nibble_of_and_eq h rfl, rfl, rfl⟩, fun x imm s => ⟨_, rfl, ?_⟩⟩
  exact s.skipWhen_pc_and_frame beq_iff_eq

/-- Settles O23: the class alone fixes the row, and the compare wants inequality. -/
theorem skipIfNotEqualImmediate : Obligations.SkipIfNotEqualImmediate := by
  refine ⟨fun w h => decodeWord_of_spells ⟨nibble_of_and_eq h rfl, rfl, rfl⟩, fun x imm s => ⟨_, rfl, ?_⟩⟩
  exact s.skipWhen_pc_and_frame beq_eq_false_iff_ne

/-- Settles O24: the class alone fixes the row, with equality wanted, and two truth values are equal when they are true
together. -/
theorem skipByComparingRegisters : Obligations.SkipByComparingRegisters := by
  refine ⟨fun w h => decodeWord_of_spells ⟨nibble_of_and_eq h rfl, rfl, rfl, rfl⟩,
    fun x y wantEqual s => ⟨_, rfl, ?_⟩⟩
  have hP : (s.reg x == s.reg y) = wantEqual ↔ (s.reg x = s.reg y ↔ wantEqual = true) := by
    rw [Bool.eq_iff_iff, beq_iff_eq]
  exact s.skipWhen_pc_and_frame hP

end Sys2Proof.Machine
end

section
/-! PROOFS. The statements of 43_register_ops.md: what SetImmediate, AddImmediate and SetIndex write and leave alone. -/

namespace Sys2Proof.Machine

/-- A register write leaves every part but the registers alone (10_state.md rule R10). -/
theorem State.unchangedBut_setReg (s : State) (i : Nibble) (v : Byte) : s.UnchangedBut [.regs] (s.setReg i v) := by
  intro p hp
  cases p with
  | regs => exact absurd (List.mem_singleton_self _) hp
  | pc => exact s.setReg_pc i v
  | index => exact s.setReg_index i v
  | stack => exact ⟨s.setReg_sp i v, fun _ => rfl⟩
  | memory => exact ⟨s.setReg_readByte i v, s.setReg_loadBase i v, s.setReg_imgLen i v⟩
  | grid => exact fun _ _ => rfl
  | status => exact s.setReg_status i v

/-- A write of `I` leaves every other part alone (10_state.md rule R17). -/
theorem State.unchangedBut_setIndex (s : State) (v : Word) : s.UnchangedBut [.index] (s.setIndex v) := by
  intro p hp
  cases p with
  | index => exact absurd (List.mem_singleton_self _) hp
  | regs => exact s.setIndex_reg v
  | pc => exact s.setIndex_pc v
  | stack => exact ⟨s.setIndex_sp v, fun _ => rfl⟩
  | memory => exact ⟨s.setIndex_readByte v, s.setIndex_loadBase v, s.setIndex_imgLen v⟩
  | grid => exact fun _ _ => rfl
  | status => exact s.setIndex_status v

/-- Settles O25: the class alone fixes the row, and SetImmediate is one register write. -/
theorem loadImmediateOverwritesOneRegister : Obligations.LoadImmediateOverwritesOneRegister := by
  refine ⟨fun w h => decodeWord_of_spells ⟨nibble_of_and_eq h rfl, rfl, rfl⟩, fun x imm s => ?_⟩
  exact ⟨s.setReg x imm, rfl, s.reg_setReg_self x imm, fun j => s.reg_setReg_of_ne x j imm, s.unchangedBut_setReg x imm⟩

/-- Settles O26: the class alone fixes the row, and AddImmediate is one register write, of a byte sum, which is modulo
256. -/
theorem addImmediateWrapsWithoutAFlag : Obligations.AddImmediateWrapsWithoutAFlag := by
  refine ⟨fun w h => decodeWord_of_spells ⟨nibble_of_and_eq h rfl, rfl, rfl⟩, fun x imm s => ?_⟩
  refine ⟨s.setReg x (s.reg x + imm), rfl, ?_, fun j => s.reg_setReg_of_ne x j _, s.unchangedBut_setReg x _⟩
  rw [State.reg_setReg_self, BitVec.toNat_add]

/-- Settles O27: the class alone fixes the row, and SetIndex is one write of `I`, whose zero extension keeps the value. -/
theorem setIndexZeroExtends : Obligations.SetIndexZeroExtends := by
  refine ⟨fun w h => decodeWord_of_spells ⟨nibble_of_and_eq h rfl, rfl⟩, fun addr s => ?_⟩
  exact ⟨s.setIndex (zext16 addr), rfl, toNat_zext16 addr, s.unchangedBut_setIndex _⟩

end Sys2Proof.Machine
end

section
/-! PROOFS. The statements of 44_display.md: what ClearScreen and Draw do to the grid and to the collision flag, and that
they do nothing else. The row loop of a Draw is met once, in `State.drawRows_draws`. -/

namespace Sys2Proof.Machine

/-! ### Frames -/

/-- A write of the grid leaves every other part alone (10_state.md rule R23). -/
theorem State.unchangedBut_setGrid (s : State) (g : Grid) : s.UnchangedBut [.grid] (s.setGrid g) := by
  intro p hp
  cases p with
  | grid => exact absurd (List.mem_singleton_self _) hp
  | regs => exact s.setGrid_reg g
  | pc => exact s.setGrid_pc g
  | index => exact s.setGrid_index g
  | stack => exact ⟨s.setGrid_sp g, fun _ => rfl⟩
  | memory => exact ⟨s.setGrid_readByte g, s.setGrid_loadBase g, s.setGrid_imgLen g⟩
  | status => exact s.setGrid_status g

/-- A part that two updates keep, both together keep. -/
theorem State.Keeps.trans {s t u : State} {p : Part} (hst : s.Keeps t p) (htu : t.Keeps u p) : s.Keeps u p := by
  cases p with
  | regs => exact fun i => (htu i).trans (hst i)
  | pc | index | status => exact Eq.trans htu hst
  | stack =>
    obtain ⟨hsp, hslots⟩ := hst
    obtain ⟨hsp', hslots'⟩ := htu
    exact ⟨hsp'.trans hsp, fun k => (hslots' k).trans (hslots k)⟩
  | memory =>
    obtain ⟨hbytes, hbase, hlen⟩ := hst
    obtain ⟨hbytes', hbase', hlen'⟩ := htu
    exact ⟨fun a => (hbytes' a).trans (hbytes a), hbase'.trans hbase, hlen'.trans hlen⟩
  | grid => exact fun px py => (htu px py).trans (hst px py)

/-- Two updates after each other change no part outside both their lists. -/
theorem State.UnchangedBut.trans {ps qs rs : List Part} {s t u : State} (hst : s.UnchangedBut ps t)
    (htu : t.UnchangedBut qs u) (hps : ps ⊆ rs) (hqs : qs ⊆ rs) : s.UnchangedBut rs u :=
  fun p hp => (hst p fun h => hp (hps h)).trans (htu p fun h => hp (hqs h))

/-! ### ClearScreen -/

/-- Settles O18: nibbles 0 and 3 alone fix the row, and ClearScreen is one write of the grid. -/
theorem clearScreenTurnsEveryCellOff : Obligations.ClearScreenTurnsEveryCellOff := by
  refine ⟨fun w h => decodeWord_of_spells ⟨nibble_of_and_eq h rfl, nibble_of_and_eq h rfl⟩, fun s => ?_⟩
  exact ⟨s.setGrid Grid.blank, rfl, Grid.pixel_blank, s.unchangedBut_setGrid _⟩

/-! ### The sprite, row by row -/

/-- How many rows of a sprite at `I` have a byte of memory under them (44_display.md rule R143). -/
def State.rowsInMemory (s : State) : Nat := Config.memSize - s.index.toNat

/-- The byte of a row is read exactly when the row is one of those with memory under them. -/
theorem State.readByte?_rowAddr_isSome (s : State) (r : Nat) :
    (s.readByte? (s.rowAddr r)).isSome ↔ r < s.rowsInMemory := by
  rw [State.readByte?_isSome, State.rowAddr, State.rowsInMemory]
  omega

/-- A sprite has no bit outside its rectangle (44_display.md rule R142). -/
theorem State.spriteBit_outside (s : State) {x0 y0 rows px py : Nat}
    (h : px < x0 ∨ x0 + 8 ≤ px ∨ py < y0 ∨ y0 + rows ≤ py) : s.spriteBit x0 y0 rows px py = false := by
  have hout : ¬ (x0 ≤ px ∧ px < x0 + 8 ∧ y0 ≤ py ∧ py < y0 + rows) := by omega
  simp [State.spriteBit, hout]

/-- The sprite depends on `I` and on memory alone. -/
theorem State.spriteBit_congr {s t : State} (hindex : t.index = s.index) (hmem : ∀ a, t.readByte? a = s.readByte? a) :
    t.spriteBit = s.spriteBit := by
  funext x0 y0 rows px py
  simp only [State.spriteBit, hindex, hmem]

/-- A sprite of one row more has the bits of that row's byte besides. -/
theorem State.spriteBit_succ (s : State) (x0 y0 : Nat) {r : Nat} {b : Byte} (hb : s.readByte? (s.rowAddr r) = some b)
    (px py : Nat) : s.spriteBit x0 y0 (r + 1) px py = (s.spriteBit x0 y0 r px py || rowBit x0 (y0 + r) b px py) := by
  by_cases hy : py = y0 + r
  · subst hy
    rw [s.spriteBit_outside (rows := r) (by omega)]
    unfold State.rowAddr at hb
    simp [State.spriteBit, rowBit, hb]
  · have hrange : py < y0 + (r + 1) ↔ py < y0 + r := by omega
    simp [State.spriteBit, rowBit, hy, hrange]

/-- The bits of a row are no bits of the rows before it. -/
theorem State.spriteBit_of_rowBit (s : State) {x0 y0 r : Nat} {b : Byte} {px py : Nat}
    (h : rowBit x0 (y0 + r) b px py = true) : s.spriteBit x0 y0 r px py = false := by
  have hy : py = y0 + r := ((rowBit_iff x0 (y0 + r) b px py).2 h).1
  exact s.spriteBit_outside (by omega)

/-! ### The row loop against the sprite -/

/-- The canvas shows the first `r` rows of the sprite drawn on the grid of `s`, and its flag tells whether they met a lit
cell (44_display.md rules R141, R144 (c)). -/
structure Canvas.Draws (c : Canvas) (s : State) (x0 y0 r : Nat) : Prop where
  pixel : ∀ px py, c.grid.pixel px py = (s.grid.pixel px py ^^ s.spriteBit x0 y0 r px.val py.val)
  collision : c.collision = true ↔ s.SpriteHits x0 y0 r

/-- A Draw starts with no row drawn. -/
theorem Canvas.draws_zero (s : State) (x0 y0 : Nat) : Canvas.Draws ⟨s.grid, false⟩ s x0 y0 0 := by
  have hnone : ∀ px py, s.spriteBit x0 y0 0 px py = false := fun px py => s.spriteBit_outside (by omega)
  constructor
  · simp [hnone]
  · simp [State.SpriteHits, hnone]

/-- Plotting the next row's byte draws one row more. No row before it has touched the cells of this one, so what it meets
is what was lit on entry. -/
theorem Canvas.Draws.plotRow {c : Canvas} {s : State} {x0 y0 r : Nat} {b : Byte} (h : c.Draws s x0 y0 r)
    (hb : s.readByte? (s.rowAddr r) = some b) : (c.plotRow x0 (y0 + r) b).Draws s x0 y0 (r + 1) := by
  constructor
  · intro px py
    rw [Canvas.pixel_plotRow, h.pixel, s.spriteBit_succ x0 y0 hb]
    cases hrow : rowBit x0 (y0 + r) b px.val py.val with
    | false => simp
    | true => simp [s.spriteBit_of_rowBit hrow]
  · have hmeets : ∀ (px : Fin Config.gridW) (py : Fin Config.gridH), rowBit x0 (y0 + r) b px.val py.val = true →
        c.grid.pixel px py = s.grid.pixel px py := fun px py hrow => by
      rw [h.pixel, s.spriteBit_of_rowBit hrow, Bool.xor_false]
    rw [Canvas.collision_plotRow, h.collision]
    simp only [State.SpriteHits, s.spriteBit_succ x0 y0 hb, Bool.or_eq_true, or_and_right, exists_or]
    refine or_congr_right (exists_congr fun px => exists_congr fun py => and_congr_right fun hrow => ?_)
    rw [hmeets px py hrow]

/-- The row loop draws the rows that have memory under them, and completes exactly when those are all (44_display.md rules
R141, R143). -/
theorem State.drawRows_draws (s : State) (x0 y0 rows : Nat) {r : Nat} {c : Canvas} (hr : r ≤ s.rowsInMemory)
    (hc : c.Draws s x0 y0 r) : ∃ d : Canvas, d.Draws s x0 y0 (min (r + rows) s.rowsInMemory) ∧
      s.drawRows x0 y0 rows r c = if r + rows ≤ s.rowsInMemory then .complete d else .outOfBounds d.grid := by
  induction rows generalizing r c with
  | zero => exact ⟨c, by rwa [Nat.add_zero, Nat.min_eq_left hr], (if_pos hr).symm⟩
  | succ rows ih =>
    have hread := s.readByte?_rowAddr_isSome r
    unfold State.drawRows
    cases hb : s.readByte? (s.rowAddr r) with
    | none =>
      have hlast : r = s.rowsInMemory := Nat.le_antisymm hr (by simpa [hb] using hread)
      exact ⟨c, by rwa [Nat.min_eq_right (by omega), ← hlast], (if_neg (by omega)).symm⟩
    | some b =>
      have hnext : r + 1 ≤ s.rowsInMemory := hread.1 (by rw [hb]; rfl)
      have harg : r + (rows + 1) = r + 1 + rows := by omega
      rw [harg]
      exact ih hnext (hc.plotRow hb)

/-- A Draw, whole: it draws the rows that have memory under them, then writes the flag when those are all and halts when
they are not (44_display.md rules R141, R143). -/
theorem exec_drw_draws (x y n : Nibble) (s : State) :
    ∃ c : Canvas, c.Draws s ((s.reg x).toNat % 64) ((s.reg y).toNat % 32) (min n.toNat s.rowsInMemory) ∧
      exec (.drw x y n) s = .next (if n.toNat ≤ s.rowsInMemory then (s.setGrid c.grid).setFlag c.collision
        else (s.setGrid c.grid).raise .outOfBoundsRead) := by
  obtain ⟨c, hc, hrows⟩ := s.drawRows_draws _ _ n.toNat (Nat.zero_le _)
    (Canvas.draws_zero s (s.drawColumn x) (s.drawRow y))
  rw [Nat.zero_add] at hc hrows
  refine ⟨c, hc, ?_⟩
  by_cases hall : n.toNat ≤ s.rowsInMemory
  · simp only [exec, execDrw, hrows, if_pos hall]
  · simp only [exec, execDrw, hrows, if_neg hall]

/-! ### Draw -/

/-- Settles O28: every row has memory under it, so the canvas holds the whole sprite and its flag is written. -/
theorem drawXorsTheSpriteIntoTheGrid : Obligations.DrawXorsTheSpriteIntoTheGrid := by
  intro x y n s hfits
  have hall : n.toNat ≤ s.rowsInMemory := by unfold State.rowsInMemory; omega
  obtain ⟨c, hc, he⟩ := exec_drw_draws x y n s
  rw [if_pos hall] at he
  rw [Nat.min_eq_left hall] at hc
  have hflag : ((s.setGrid c.grid).setFlag c.collision).reg 15 = flagByte c.collision :=
    (s.setGrid c.grid).reg_setReg_self flagReg _
  refine ⟨_, he, hc.pixel, fun hhit => ?_, fun hmiss => ?_, fun j hj => ?_, ?_⟩
  · rw [hflag, hc.collision.2 hhit]; rfl
  · rw [hflag, Bool.eq_false_iff.2 (mt hc.collision.1 hmiss)]; rfl
  · exact (s.setGrid c.grid).reg_setReg_of_ne flagReg j _ hj
  · exact (s.unchangedBut_setGrid _).trans (State.unchangedBut_setReg _ flagReg _) (by decide) (by decide)

/-- Settles O29: the rows with memory under them are fewer than all, so the canvas holds those and the Draw halts. -/
theorem drawPastMemoryKeepsTheRowsBefore : Obligations.DrawPastMemoryKeepsTheRowsBefore := by
  intro x y n s hpos hpast
  have hnotall : ¬ n.toNat ≤ s.rowsInMemory := by unfold State.rowsInMemory; omega
  obtain ⟨c, hc, he⟩ := exec_drw_draws x y n s
  rw [if_neg hnotall] at he
  rw [Nat.min_eq_right (Nat.le_of_not_le hnotall)] at hc
  exact ⟨_, he, rfl, hc.pixel,
    (s.unchangedBut_setGrid _).trans (State.unchangedBut_raise _ _) (by decide) (by decide)⟩

/-- Settles O30: on both paths the grid is the canvas's, whose sprite has at most `N` rows and no bit outside its
rectangle. -/
theorem drawTouchesOnlyItsRectangle : Obligations.DrawTouchesOnlyItsRectangle := by
  intro x y n s t px py h hout
  obtain ⟨c, hc, he⟩ := exec_drw_draws x y n s
  have hgrid : t.grid = c.grid := by
    rw [he] at h
    cases h
    split <;> rfl
  rw [hgrid, hc.pixel, s.spriteBit_outside (by omega), Bool.xor_false]

/-- A Draw that leaves the machine running had memory under all its rows (44_display.md rule R143). -/
theorem drw_fits_of_running {x y n : Nibble} {s t : State} (h : exec (.drw x y n) s = .next t)
    (ht : t.status = .running) : n.toNat = 0 ∨ s.index.toNat + n.toNat ≤ Config.memSize := by
  by_contra hpast
  obtain ⟨t', h', hhalt, -⟩ := drawPastMemoryKeepsTheRowsBefore x y n s (by omega) (by omega)
  rw [h] at h'
  cases h'
  rw [ht] at hhalt
  cases hhalt

/-- After a Draw the sprite hits a lit cell exactly where it hit an unlit one before (44_display.md rule R144 (a)). -/
theorem State.spriteHits_of_drawn {s t : State} {x0 y0 rows : Nat} (hsprite : t.spriteBit = s.spriteBit)
    (hpix : ∀ px py, t.grid.pixel px py = (s.grid.pixel px py ^^ s.spriteBit x0 y0 rows px.val py.val)) :
    t.SpriteHits x0 y0 rows ↔
      ∃ px py, s.spriteBit x0 y0 rows px.val py.val = true ∧ s.grid.pixel px py = false := by
  unfold State.SpriteHits
  rw [hsprite]
  refine exists_congr fun px => exists_congr fun py => and_congr_right fun hbit => ?_
  rw [hpix, hbit, Bool.xor_true, Bool.not_eq_true']

/-- Settles O31: the first Draw keeps `I` and memory, so the second draws the same sprite, whose XOR undoes itself, and
meets a lit cell exactly where the first met an unlit one. -/
theorem drawTwiceRestoresTheGrid : Obligations.DrawTwiceRestoresTheGrid := by
  intro x y n s t h hkept hrun hx hy
  have hfits := drw_fits_of_running h (hkept.trans hrun)
  obtain ⟨t', h', hpix, -, hmiss, -, hframe⟩ := drawXorsTheSpriteIntoTheGrid x y n s hfits
  obtain rfl : t = t' := by rw [h] at h'; cases h'; rfl
  have hindex : t.index = s.index := hframe .index (by decide)
  obtain ⟨hbytes, -, -⟩ := hframe .memory (by decide)
  have hsprite : t.spriteBit = s.spriteBit := State.spriteBit_congr hindex hbytes
  obtain ⟨u, hu, hpix', hhit', hmiss', -, -⟩ := drawXorsTheSpriteIntoTheGrid x y n t (by rwa [hindex])
  rw [hx, hy, State.spriteHits_of_drawn hsprite hpix] at hhit' hmiss'
  rw [hx, hy] at hpix'
  refine ⟨fun hblank => hmiss ?_, u, hu, fun px py => ?_, ⟨fun hone => ?_, hhit'⟩, ?_⟩
  · rintro ⟨px, py, -, hlit⟩
    rw [hblank] at hlit
    cases hlit
  · rw [hpix', hpix, hsprite, Bool.xor_assoc, Bool.xor_self, Bool.xor_false]
  · by_contra hno
    rw [hmiss' hno] at hone
    exact absurd hone (by decide)
  · exact (Classical.em _).elim (fun hhit => .inr (hhit' hhit)) (fun hno => .inl (hmiss' hno))

end Sys2Proof.Machine
end

section
/-! PROOFS. The statements of 60_exceptions.md: the halt past the end of the image, and the status port. -/

namespace Sys2Proof.Machine

/-! ### The end of the program -/

/-- Settles O10: the fetch check fails, the halt is all that the tick does, and a halted machine stays as it is. -/
theorem fetchPastTheEndHalts : Obligations.FetchPastTheEndHalts := by
  intro s hrun hpast
  have hp : ¬ s.fetchPermitted := fun ⟨_, hend⟩ => Nat.not_lt.2 hend hpast
  exact ⟨s.raise .endOfProgram, step_of_not_permitted s hrun hp, rfl, s.unchangedBut_raise _, step_of_halted _ _ rfl⟩

/-! ### The status port -/

/-- The status code depends on the status alone. -/
theorem State.statusCode_congr {s t : State} (h : s.status = t.status) : s.statusCode = t.statusCode := by
  unfold State.statusCode
  rw [h]

/-- The code of a machine halted with `r` is the one that `raise r` leaves. -/
theorem State.statusCode_of_halted {s : State} {r : HaltReason} (h : s.status = .halted r) :
    s.statusCode = (s.raise r).statusCode :=
  State.statusCode_congr h

/-- A halt with InvalidInstruction is the only one that reports a word, the one it carries (rule R26). -/
theorem State.haltWord_eq_some (s : State) (w : Word) :
    s.haltWord = some w ↔ s.status = .halted (.invalidInstruction w) := by
  unfold State.haltWord
  split
  case h_1 v hs => simp [hs]
  case h_2 hother => simpa using hother w

/-- Settles O46: the code of each reason, and a state that reports a word has the code 2. -/
theorem statusPortReportsTheReason : Obligations.StatusPortReportsTheReason := by
  intro s
  have hinvalid (w : Word) (h : s.status = .halted (.invalidInstruction w)) : s.statusCode = 2 :=
    State.statusCode_of_halted h
  refine ⟨fun h => State.statusCode_congr (t := .reset) h, State.statusCode_of_halted,
    fun w h => ⟨hinvalid w h, (s.haltWord_eq_some w).2 h⟩, State.statusCode_of_halted, State.statusCode_of_halted,
    State.statusCode_of_halted, fun hcode => ?_⟩
  exact Option.eq_none_iff_forall_ne_some.2 fun w hw => hcode (hinvalid w ((s.haltWord_eq_some w).1 hw))

end Sys2Proof.Machine
end

section
/-! PROOFS. The statements of 70_reset_and_hazards.md: what a load accepts and leaves, the first tick after it, and that
every tick from a state that meets the invariant completes. -/

namespace Sys2Proof.Machine

/-! ### Every tick completes -/

/-- Inside the invariant a permitted fetch has memory under it: the loaded extent ends at `MEM_SIZE` or before (rules R91,
R182). -/
theorem State.Inv.exists_readWord? {s : State} (hs : s.Inv) (hp : s.fetchPermitted) :
    ∃ w, s.readWord? s.pc.toNat = some w := by
  have hend : s.pc.toNat + 2 ≤ Config.memSize := hp.2.trans hs.extentFits
  obtain ⟨hi, hhi⟩ := Option.isSome_iff_exists.1 ((s.readByte?_isSome s.pc.toNat).2 (by omega))
  obtain ⟨lo, hlo⟩ := Option.isSome_iff_exists.1 ((s.readByte?_isSome (s.pc.toNat + 1)).2 (by omega))
  exact ⟨hi ++ lo, State.readWord?_of_bytes hhi hlo⟩

/-- Settles O37: every instruction answers a next state, and the fetch that would fault breaks the invariant. -/
theorem everyTickCompletes : Obligations.EveryTickCompletes := by
  intro s hs
  rcases step_cases s with ⟨r, -, e⟩ | ⟨-, -, e⟩ | ⟨-, hp, hw, -⟩ | ⟨w, err, -, -, -, -, e⟩ | ⟨w, i, -, -, -, -, e⟩
  · exact ⟨_, e⟩
  · exact ⟨_, e⟩
  · obtain ⟨w, hsome⟩ := hs.exists_readWord? hp
    rw [hw] at hsome
    cases hsome
  · exact ⟨_, e⟩
  · rw [e]
    exact exec_answers_next i s.advance

/-! ### What a load accepts and leaves -/

/-- A loaded machine runs from the base and holds the loaded extent (rules R180, R181). -/
theorem load_running_at_base {img : List Byte} {base : Nat} {s : State} (h : State.load img base = .next s) :
    s.status = .running ∧ s.pc = BitVec.ofNat 16 base ∧ s.loadBase = base ∧ s.imgLen = img.length := by
  obtain ⟨-, -, rfl⟩ := (State.load_eq_next img base s).1 h
  exact ⟨rfl, rfl, rfl, rfl⟩

/-- Byte `i` of a loaded image is read at `LOAD_BASE + i` (rule R181). -/
theorem load_readByte? {img : List Byte} {base i : Nat} {b : Byte} {s : State} (h : State.load img base = .next s)
    (hb : img[i]? = some b) : s.readByte? (base + i) = some b := by
  obtain ⟨-, hfit, rfl⟩ := (State.load_eq_next img base s).1 h
  have hfit : base + img.length ≤ Config.memSize := of_decide_eq_true hfit
  obtain ⟨hi, -⟩ := List.getElem?_eq_some_iff.1 hb
  have hmem : (Memory.putBytes [] base img).byteAt? (base + i) = some b := by
    rw [Memory.byteAt?_putBytes _ _ _ _ List.Pairwise.nil, if_pos (by omega), Nat.add_sub_cancel_left, hb]
  have hlt : base + i < Config.memSize := by omega
  simp [State.readByte?, hlt, hmem]

/-- Settles O41: the preconditions are those of a load that answers, and the bytes are read back. -/
theorem loadCopiesTheImage : Obligations.LoadCopiesTheImage := by
  intro img base heven hfit
  have hload := (State.load_eq_next img base _).2 ⟨beq_iff_eq.2 heven, decide_eq_true hfit, rfl⟩
  obtain ⟨-, -, hextent⟩ := load_running_at_base hload
  exact ⟨_, hload, fun _ _ => load_readByte? hload, hextent⟩

/-- Settles O45: the first two bytes of the image are the bytes at `pc`, which is the base. -/
theorem firstTickRunsTheInstructionAtTheBase : Obligations.FirstTickRunsTheInstructionAtTheBase := by
  intro hi lo rest base s i hload hd
  obtain ⟨hrun, hpc, hbase, hlen⟩ := load_running_at_base hload
  obtain ⟨-, hpcNat, -⟩ := loadResetsTheMachine _ _ _ hload
  have hhi : s.readByte? s.pc.toNat = some hi := hpcNat ▸ load_readByte? (i := 0) hload rfl
  have hlo : s.readByte? (s.pc.toNat + 1) = some lo := hpcNat ▸ load_readByte? (i := 1) hload rfl
  have hend : s.pc.toNat + 2 ≤ s.loadBase + s.imgLen := by
    rw [hpcNat, hbase, hlen, List.length_cons, List.length_cons]
    omega
  have hadvance : s.pc + 2 = BitVec.ofNat 16 (base + 2) := by
    rw [hpc]
    exact (BitVec.ofNat_add base 2).symm
  rw [stepRunsTheDecodedInstruction s hi lo i hrun (by rw [hpcNat, hbase]) hend hhi hlo hd, hadvance]

/-! ### What a load refuses -/

/-- Settles O43: each clause fails the test that names its refusal, and the base is tested first. -/
theorem loadRefusesWhatBreaksItsPreconditions : Obligations.LoadRefusesWhatBreaksItsPreconditions := by
  refine ⟨fun img base hodd => ?_, fun img base heven hlong => ?_⟩
  · have hbase : loadBaseEven base = false := beq_false_of_ne (by omega)
    simp [State.load, hbase]
  · have hbase : loadBaseEven base = true := beq_iff_eq.2 heven
    have hfit : imageFits base img = false := decide_eq_false (Nat.not_le.2 hlong)
    simp [State.load, hbase, hfit]

/-! ### The empty image -/

/-- Settles O44: the empty image's loaded extent holds no two bytes to fetch. -/
theorem resetIsTheLoadOfTheEmptyImage : Obligations.ResetIsTheLoadOfTheEmptyImage :=
  ⟨(State.load_eq_next [] 0x200 .reset).2 ⟨rfl, rfl, rfl⟩, step_of_not_permitted .reset rfl (by decide)⟩

end Sys2Proof.Machine
end

section
/-! PROOFS. The statements about fetches that the rules do not name: below `LOAD_BASE` (spec decision D8) and where there
is no memory (log entry 16). -/

namespace Sys2Proof.Machine

/-- Settles O11: the fetch check fails at its lower bound, and the halt is all that the tick does. -/
theorem fetchBelowTheBaseHalts : Obligations.FetchBelowTheBaseHalts := by
  intro s hrun hbelow
  have hp : ¬ s.fetchPermitted := fun ⟨hbase, _⟩ => Nat.not_lt.2 hbase hbelow
  exact ⟨s.raise .endOfProgram, step_of_not_permitted s hrun hp, rfl, s.unchangedBut_raise _⟩

/-- A word whose second byte is at `MEM_SIZE` or above is not read (20_memory.md rule R47). -/
theorem State.readWord?_eq_none (s : State) {a : Nat} (h : Config.memSize < a + 2) : s.readWord? a = none := by
  refine Option.eq_none_iff_forall_ne_some.2 fun w hw => ?_
  obtain ⟨hi, lo, -, hlo, -⟩ := (s.readWord?_eq_some a w).1 hw
  have hlt : a + 1 < Config.memSize := (s.readByte?_isSome (a + 1)).1 (Option.isSome_of_eq_some hlo)
  omega

/-- Settles O13: the fetch check passes and there is no word to read. -/
theorem fetchWithNoMemoryFaults : Obligations.FetchWithNoMemoryFaults := by
  intro s hrun hp hpast
  exact step_of_no_memory s hrun hp (s.readWord?_eq_none hpast)

end Sys2Proof.Machine
end
